-- ==== Sys2Proof/Word.lean ====
section
/-! DEFINITION. The fixed-width words of the block (00_scope.md R12). Every value of the spec is an unsigned
integer of a stated width, so each is a `BitVec` of that width. -/

namespace Sys2Proof

/-- A byte, the spec's `u8` (R12). -/
abbrev Byte := BitVec 8

/-- A finite sequence of bytes, numbered from 0, the spec's `Bytes` (R11, R12). -/
abbrev Bytes := List Byte

/-- A 16-bit command word (R70, R77). -/
abbrev CmdWord := BitVec 16

/-- A 13-bit packet identifier (R9, R15). -/
abbrev Pid := BitVec 13

end Sys2Proof
end

