-- ==== Sys2Proof/Config.lean ====
section
/-! DEFINITION. What the spec leaves to the platform and fixes nowhere: the free values of the model. The fixed
parameters of 00_scope.md R9 are in Machine/Params.lean. The open parameters of R10 are data of the state:
`OUT_CAPACITY` is `State.outCapacity`, and `N_INST` is the length of `System.instances`. -/

namespace Sys2Proof

/-- Free value (93_implementation_defined.md U8, 70_reset_and_hazards.md R230): when `k` choices were taken before, and a
command during which a RESET arrives is served, does the command go first (`true`), or did it never start (`false`)?
The spec admits both, so nothing is known of this function. DESIGN CHOICE: a command that is held for room is served again at
the next step, and then the choice is taken afresh (notes/assumptions/7.md); instances with equal counts choose alike
(notes/assumptions/8.md). -/
opaque Config.commandBeatsReset : Nat → Bool

/-- Free value (10_state.md R22, 93_implementation_defined.md U7): the byte that a RESET leaves in ASC_BUF at index `i`,
when `k` choices were taken before it. The spec leaves these bytes unspecified, and no rule reads them before an INIT
writes them. See notes/assumptions/1.md, and 8.md for instances with equal counts. -/
opaque Config.ascBufAfterReset : (k i : Nat) → Byte

end Sys2Proof
end

