-- ==== Sys2Proof/Syntax.lean ====
section
/-! DEFINITION. The commands of PMTC-1 as abstract terms: one constructor for each row of spec/opcode_table.json
(30_encoding.md R71, 44_commands.md R171 to R174). -/

namespace Sys2Proof

/-- The codec variants, a closed set (R24): 0 = H264, 1 = AAC in the `CODEC` field (R72). -/
inductive Codec where
  | h264
  | aac
deriving DecidableEq, Repr

/-- The four commands. Their binary layout is in Decode.lean alone. -/
inductive Instr where
  /-- `WRITE_CLEAR`: one packet, mode Clear (R172). -/
  | writeClear
  /-- `WRITE_CLEAR_LEAD`: two packets, modes ClearLeadFirst and ClearLeadSecond (R173). -/
  | writeClearLead
  /-- `WRITE_ENCRYPTED`: one packet, mode Encrypted (R174). -/
  | writeEncrypted
  /-- `INIT codec, data`: construct a new writer (R171). `data` is the data vector of R74. The command word's
  `ASC_LEN` field is its length, so the term holds the length once. -/
  | init (codec : Codec) (data : Bytes)
deriving DecidableEq, Repr

end Sys2Proof
end

