-- ==== Sys2Proof/WellFormed.lean ====
section
/-! DEFINITION. Which commands can be written as a transaction: the length of INIT's data vector is an 8-bit
field of the command word (30_encoding.md R73, R74), so it is at most 255 bytes (`ASC_LEN_MAX`, R9). -/

namespace Sys2Proof

/-- The one condition a command can break: INIT's data vector is at most `ASC_LEN_MAX` = 255 bytes (R9, R73). -/
def Instr.wf : Instr → Bool
  | .writeClear => true
  | .writeClearLead => true
  | .writeEncrypted => true
  | .init _ data => data.length ≤ 255

@[simp] theorem Instr.wf_writeClear : Instr.writeClear.wf = true := rfl
@[simp] theorem Instr.wf_writeClearLead : Instr.writeClearLead.wf = true := rfl
@[simp] theorem Instr.wf_writeEncrypted : Instr.writeEncrypted.wf = true := rfl
@[simp] theorem Instr.wf_init (c : Codec) (data : Bytes) : (Instr.init c data).wf = true ↔ data.length ≤ 255 := by
  simp [Instr.wf]

end Sys2Proof
end

