-- ==== Sys2Proof/Decode.lean ====
section
/-! DEFINITION. The command encoding of 30_encoding.md: the decoder, total on all 65536 words and any data vector,
and the encoder written from the same tables. -/

namespace Sys2Proof

/-- What a command word alone says: the result of `Decode` in R75. -/
inductive Cmd where
  /-- An illegal word (R76): it faults ILLEGAL_COMMAND. -/
  | illegal
  /-- INIT with `CODEC` 2 or 3 (R72): it faults UNSUPPORTED_CODEC. -/
  | badCodec
  /-- INIT with the codec and the byte count `n` of its data vector. -/
  | init (codec : Codec) (n : BitVec 8)
  | writeClear
  | writeClearLead
  | writeEncrypted
deriving DecidableEq, Repr

/-- Why a transaction is not one of the four commands. -/
inductive DecodeError where
  /-- The word is outside R75's four commands. -/
  | illegalCommand
  /-- The word is INIT naming a reserved codec. -/
  | unsupportedCodec
  /-- The data vector has not the length the word fixes. R74 says that no transaction does this. -/
  | wrongDataLength
deriving DecidableEq, Repr

/-- `OP` = `w[3:0]` (R70). -/
def opField (w : CmdWord) : BitVec 4 := w.extractLsb' 0 4

/-- `CODEC` = `w[5:4]` (R70). -/
def codecField (w : CmdWord) : BitVec 2 := w.extractLsb' 4 2

/-- `RSV` = `w[7:6]` (R70). -/
def rsvField (w : CmdWord) : BitVec 2 := w.extractLsb' 6 2

/-- `ASC_LEN` = `w[15:8]` (R70). -/
def ascLenField (w : CmdWord) : BitVec 8 := w.extractLsb' 8 8

/-- `w[15:4]`, which must be 0 in the WRITE_* commands (R70). -/
def highField (w : CmdWord) : BitVec 12 := w.extractLsb' 4 12

/-- The codec a `CODEC` field names: 0 is H264, 1 is AAC, 2 and 3 are reserved (R72). -/
def codecOf (f : BitVec 2) : Option Codec :=
  if f = 0#2 then some .h264 else if f = 1#2 then some .aac else none

/-- A codec's 2-bit code (R24, R72). -/
def Codec.code : Codec → BitVec 2
  | .h264 => 0#2
  | .aac => 1#2

/-- A WRITE_* word is the command if its bits [15:4] are all 0, and is illegal otherwise (R70, R75). -/
def writeWord (w : CmdWord) (cmd : Cmd) : Cmd :=
  if highField w = 0#12 then cmd else .illegal

/-- An INIT word: a set reserved bit makes it illegal, and then a reserved codec makes it BadCodec (R75). -/
def initWord (w : CmdWord) : Cmd :=
  if rsvField w = 0#2 then
    match codecOf (codecField w) with
    | some c => .init c (ascLenField w)
    | none => .badCodec
  else .illegal

/-- `Decode` of R75, total on all command words. -/
def decodeWord (w : CmdWord) : Cmd :=
  if opField w = 1#4 then writeWord w .writeClear
  else if opField w = 2#4 then writeWord w .writeClearLead
  else if opField w = 3#4 then writeWord w .writeEncrypted
  else if opField w = 4#4 then initWord w
  else .illegal

/-- A WRITE_* command carries an empty data vector (R74). -/
def withoutData (i : Instr) (data : Bytes) : Except DecodeError Instr :=
  if data = [] then .ok i else .error .wrongDataLength

/-- The decoder of a whole transaction, a command word and its data vector (R74, R75). The data sent beside a
word that is no command is not looked at. -/
def decode (w : CmdWord) (data : Bytes) : Except DecodeError Instr :=
  match decodeWord w with
  | .illegal => .error .illegalCommand
  | .badCodec => .error .unsupportedCodec
  | .init c n => if data.length = n.toNat then .ok (.init c data) else .error .wrongDataLength
  | .writeClear => withoutData .writeClear data
  | .writeClearLead => withoutData .writeClearLead data
  | .writeEncrypted => withoutData .writeEncrypted data

/-- INIT's command word: `n << 8 | c << 4 | 0x4` with bits [7:6] = 0 (R171). -/
def initEncoding (c : Codec) (n : BitVec 8) : CmdWord :=
  n ++ (0#2 ++ (c.code ++ 4#4))

/-- The encoder: the command word and the data vector of a command (R71, R78, R171 to R174). -/
def encode : Instr → CmdWord × Bytes
  | .writeClear => (0x0001#16, [])
  | .writeClearLead => (0x0002#16, [])
  | .writeEncrypted => (0x0003#16, [])
  | .init c data => (initEncoding c (BitVec.ofNat 8 data.length), data)

/-- The data vector of zeros that a command word calls for: `w[15:8]` bytes for INIT, none otherwise (R74). -/
def zeroData (w : CmdWord) : Bytes :=
  match decodeWord w with
  | .init _ n => List.replicate n.toNat 0#8
  | _ => []

/-- The command word that a row of spec/opcode_table.json with `nbits` bits of value `w` stands for. -/
def tableWord (nbits w : Nat) : CmdWord := BitVec.ofNat 16 (w % 2 ^ nbits)

/-- The command the decoder reads from a table row's bits, its data vector all zeros. -/
def decodeTableWord (nbits w : Nat) : Option Instr :=
  (decode (tableWord nbits w) (zeroData (tableWord nbits w))).toOption

end Sys2Proof
end

