-- ==== Sys2Proof/Machine/State.lean ====
section
/-! DEFINITION. The state of one block instance and of the host side it talks to, as plain data.
The first seven fields of `State` are the whole state of the block (10_state.md R20, R22). The others hold the
host's side of the interface: its output stream (R33), its pending interactions (R41, R42), and what it was told. -/

namespace Sys2Proof.Machine

/-- The fault cause codes of 60_exceptions.md R200. Codes 5 to 15 are reserved and never written (U12). -/
inductive Cause where
  /-- Code 0: no fault recorded. -/
  | none
  /-- Code 1: a command word outside the four commands. -/
  | illegalCommand
  /-- Code 2: INIT with a reserved codec. -/
  | unsupportedCodec
  /-- Code 3: a section longer than one packet can carry. -/
  | sectionTooLarge
  /-- Code 4: an emission command before a writer has been constructed. -/
  | notConfigured
deriving DecidableEq, Repr

/-- A byte memory as (index, byte) pairs in one canonical form (`Memory.wf` in Ops.lean). -/
abbrev Memory := List Host.Cell

/-- One interaction of the host with the block (R42). The host serialises them (R240), so they wait in a list. DESIGN
CHOICE: the host appends no bytes of its own to OUT, which 20_memory.md R54 leaves open. See notes/assumptions/14.md. -/
inductive HostEvent where
  /-- A command transaction: the command word and its data vector (R30, R74). -/
  | command (word : CmdWord) (data : Bytes)
  /-- A command during whose execution the platform lets RESET arrive (R230, U8). -/
  | commandDuringReset (word : CmdWord) (data : Bytes)
  /-- RESET, asserted between commands (R230). -/
  | reset
  /-- A read of STATUS (R29). -/
  | readStatus
  /-- The host's own `clear` of OUT (R43, R241). -/
  | clearOut
  /-- The host drains OUT (R41): it takes the first `bytes` bytes, or all of them if there are fewer. -/
  | drainOut (bytes : Nat)
  /-- The host's own `current_size` of OUT (R43). -/
  | readOutSize
deriving DecidableEq, Repr

/-- What the host got from its last STATUS read, its last size query or its last drain of OUT (R41, R42). -/
inductive HostReply where
  | status (value : BitVec 8)
  | outSize (bytes : Nat)
  | drained (bytes : Bytes)
deriving DecidableEq, Repr

/-- How the host makes room in OUT while a command is held for it (R41, R58). -/
inductive SinkGrant where
  /-- The sink can hold `bytes` more bytes than before. -/
  | capacity (bytes : Nat)
  /-- The host drains the first `bytes` bytes of OUT. -/
  | drain (bytes : Nat)
deriving DecidableEq, Repr

/-- The machine: the block's state elements of R22, then the host's side. -/
structure State where
  /-- `CC`, the 4-bit continuity counter (R23). -/
  cc : BitVec 4
  /-- `CFG_VALID`: the block holds a constructed writer (R26). -/
  cfgValid : Bool
  /-- `CODEC`: its 2-bit codes 2 and 3 never enter it (R24), so it is the closed set. -/
  codec : Codec
  /-- `ASC_LEN`, the length of the stored audio specific configuration (R25). -/
  ascLen : BitVec 8
  /-- `ASC_BUF`, 255 bytes indexed 0 to 254 (R25, R50). -/
  ascBuf : Memory
  /-- `FAULT`, the sticky fault flag (R27). -/
  fault : Bool
  /-- `CAUSE`, the first fault since the last clear (R28). -/
  cause : Cause
  /-- `OUT`, the host's output byte stream (R33). It is not block state. -/
  out : Bytes
  /-- `OUT_CAPACITY` (R10, R58): how many bytes OUT can hold now. `none` is a sink without a limit. -/
  outCapacity : Option Nat
  /-- How the host will make room in OUT, one entry each time a command is held for room (R58). -/
  sinkGrants : List SinkGrant
  /-- The host's interactions that are still to come, the one being served first (R41, R240). -/
  port : List HostEvent
  /-- What the host got last (R41, R42). -/
  reply : Option HostReply
  /-- How many of the model's free choices have been taken (Config.lean). -/
  choices : Nat
deriving DecidableEq, Repr

/-- Why the machine stops. No behaviour of the spec does: its faults are states of the block (R203). -/
inductive Fault where
  /-- Raised by `step` and `execInit` for a transaction whose data vector has not the length its command word
  fixes. R74 says that a transaction cannot carry the wrong count, so the spec gives it no effect. Safe. -/
  | malformedTransaction
deriving DecidableEq, Repr

/-- Why an instruction has no meaning in the model. -/
inductive Refusal where
  /-- Raised by an arm of `exec` that has no meaning yet. No arm does. Safe. -/
  | notModelled (mnemonic : String)
deriving DecidableEq, Repr

/-- The machine after RESET at power-on (R22, R230, R233): the block at its reset values, and the host's side empty.
`ascBuf` (unspecified by R22) and the host's fields are the model's choice: notes/assumptions/1.md, 4.md, 5.md. -/
def State.reset : State where
  cc := 0#4
  cfgValid := false
  codec := .h264
  ascLen := 0#8
  ascBuf := []
  fault := false
  cause := .none
  out := []
  outCapacity := none
  sinkGrants := []
  port := []
  reply := none
  choices := 0

end Sys2Proof.Machine
end

