-- ==== Sys2Proof/Machine/Params.lean ====
section
/-! DEFINITION. The fixed parameters of 00_scope.md R9, the wired-in values of 10_state.md R31 and the character codes
of 30_encoding.md R80. No command can change them. -/

namespace Sys2Proof.Machine

/-- `TS_PACKET_SIZE` (R9). -/
def tsPacketSize : Nat := 188

/-- `FRAMER_FIXED_BYTES`: the header prefix, the adaptation_field_length byte and the flags byte (R9). -/
def framerFixedBytes : Nat := 6

/-- `MAX_SECTION_BYTES` = 188 - 6, counting the pointer field through the CRC (R9, R154). -/
def maxSectionBytes : Nat := tsPacketSize - framerFixedBytes

/-- `ASC_LEN_MAX` (R9). -/
def ascLenMax : Nat := 255

/-- `PMT_PID` (R9). -/
def pmtPid : Pid := 0x0020#13

/-- `ES_PID`, both the PCR PID and the elementary PID, for both codecs (R9, R132). -/
def esPid : Pid := 0x0050#13

/-- `TABLE_ID` (R9). -/
def tableId : Byte := 0x02#8

/-- `PROGRAM_NUMBER` (R9). -/
def programNumber : BitVec 16 := 0x0001#16

/-- The sync byte of a TS packet (R31, R150). -/
def syncByte : Byte := 0x47#8

/-- The stuffing byte (R153). -/
def stuffingByte : Byte := 0xFF#8

/-- ASCII "zavc" (R80). -/
def markerZavc : Bytes := [0x7A#8, 0x61#8, 0x76#8, 0x63#8]

/-- ASCII "aacd" (R80). -/
def markerAacd : Bytes := [0x61#8, 0x61#8, 0x63#8, 0x64#8]

/-- ASCII "apad" (R80). -/
def markerApad : Bytes := [0x61#8, 0x70#8, 0x61#8, 0x64#8]

/-- ASCII "zaac" (R80). -/
def markerZaac : Bytes := [0x7A#8, 0x61#8, 0x61#8, 0x63#8]

end Sys2Proof.Machine
end

