-- ==== Sys2Proof/Machine/Ops.lean ====
section
/-! DEFINITION. The named operations over the block's two byte spaces (20_memory.md R50), the big-endian byte order
(R51), recording a fault and leaving the fault state (60_exceptions.md R203, R207), RESET (70_reset_and_hazards.md
R230), and completing or holding a command (R58, R240). -/

namespace Sys2Proof.Machine

/-! ## Byte order -/

/-- `be16` of R12: the most significant byte first (R51). -/
def be16 (v : BitVec 16) : Bytes := [v.extractLsb' 8 8, v.extractLsb' 0 8]

/-- `be32` of R12: the most significant byte first (R51). -/
def be32 (v : BitVec 32) : Bytes :=
  [v.extractLsb' 24 8, v.extractLsb' 16 8, v.extractLsb' 8 8, v.extractLsb' 0 8]

/-! ## ASC_BUF -/

namespace Memory

/-- What a byte of ASC_BUF that no INIT has written reads as. DESIGN CHOICE, unsafe: R22 leaves it unspecified, and
no rule reads it (U7). See notes/assumptions/1.md. -/
def unlisted : Byte := 0#8

/-- The canonical form: indices strictly rising and within ASC_BUF's 0 to 254 (R50), and no entry that says what an
unlisted index reads as. -/
abbrev wf (m : Memory) : Prop :=
  m.Pairwise (fun c d => c.1 < d.1) ∧ ∀ c ∈ m, c.1 < ascLenMax ∧ c.2 ≠ unlisted

/-- The byte at index `a`. -/
def read : Memory → Nat → Byte
  | [], _ => unlisted
  | c :: rest, a => if c.1 = a then c.2 else read rest a

/-- Take index `a`'s entry out. -/
def erase (m : Memory) (a : Nat) : Memory := m.filter (fun c => c.1 != a)

/-- Put an entry in its place among rising indices. -/
def insert : Memory → Nat → Byte → Memory
  | [], a, b => [(a, b)]
  | c :: rest, a, b => if a < c.1 then (a, b) :: c :: rest else c :: insert rest a b

/-- Write one byte, in canonical form. -/
def write (m : Memory) (a : Nat) (b : Byte) : Memory :=
  if b = unlisted then m.erase a else (m.erase a).insert a b

/-- Write bytes at the indices from `a` on, in index order (R52). -/
def writeBytes : Memory → Nat → Bytes → Memory
  | m, _, [] => m
  | m, a, b :: rest => writeBytes (m.write a b) (a + 1) rest

/-- What a RESET leaves in ASC_BUF: 255 free bytes (R22, R230, U7). `k` says which of the model's free choices it is. -/
@[irreducible] def afterReset (k : Nat) : Memory := writeBytes [] 0 ((List.range ascLenMax).map (Config.ascBufAfterReset k))

/-- `MemRead(ASC, a, n)` of R13. -/
def readBytes (m : Memory) : Nat → Nat → Bytes
  | _, 0 => []
  | a, n + 1 => m.read a :: readBytes m (a + 1) n

end Memory

/-! ## OUT -/

/-- Can the host's sink take `n` more bytes (R58)? -/
def State.sinkAccepts (s : State) (n : Nat) : Bool :=
  match s.outCapacity with
  | none => true
  | some c => s.out.length + n ≤ c

/-- `Append(v)` of R13: the block's only access to OUT (R33). -/
def State.append (s : State) (v : Bytes) : State := { s with out := s.out ++ v }

/-- The host drains OUT (R41): it gets the first `n` bytes, in order, and they are in OUT no more. DESIGN CHOICE: the spec
says that the host drains OUT, and not that the oldest bytes go first. See notes/assumptions/5.md. -/
def State.drainOut (s : State) (n : Nat) : State :=
  { s with out := s.out.drop n, reply := some (.drained (s.out.take n)) }

/-! ## Completing and holding a command -/

/-- The interaction at the port's head is over and the next one is served (R59, R240). -/
def State.complete (s : State) : State := { s with port := s.port.tail }

/-- The sink lacks room for a command's bytes: the block holds the command, which stays at the port's head, and
drops nothing (R58). Meanwhile the host may make room, by a larger sink or by draining OUT (R41). With no grant to come,
the command waits for ever (U10). -/
def State.holdForSink (s : State) : State :=
  match s.sinkGrants with
  | [] => s
  | .capacity n :: rest => { s with outCapacity := s.outCapacity.map (· + n), sinkGrants := rest }
  | .drain n :: rest => { s.drainOut n with sinkGrants := rest }

/-! ## Faults and RESET -/

/-- `raise Fault(code)` of R203: the first fault is recorded, and no later one changes it. -/
def State.raiseFault (s : State) (code : Cause) : State :=
  if s.fault then s else { s with fault := true, cause := code }

/-- Leaving the fault state, which constructing a new writer does (R171, R207). -/
def State.clearFault (s : State) : State := { s with fault := false, cause := .none }

/-- RESET (R230): every state element of the block goes to its reset value, and nothing of the host's changes.
R230 leaves ASC_BUF unspecified, so its bytes become free values, and the counter of choices moves on (U7). -/
def State.applyReset (s : State) : State :=
  { s with
    cc := State.reset.cc
    cfgValid := State.reset.cfgValid
    codec := State.reset.codec
    ascLen := State.reset.ascLen
    ascBuf := Memory.afterReset s.choices
    fault := State.reset.fault
    cause := State.reset.cause
    choices := s.choices + 1 }

end Sys2Proof.Machine
end

