-- ==== Sys2Proof/Machine/Operands.lean ====
section
/-! DEFINITION. The operands of the commands (30_encoding.md R72 to R74, 44_commands.md R170): the configuration that
INIT stores from its operands, and the one that the emission commands read back. -/

namespace Sys2Proof.Machine

/-- The stored length: INIT's byte count for AAC, and 0 for H264, whose data vector is discarded (R73, R171). -/
def storedAscLen (c : Codec) (data : Bytes) : BitVec 8 :=
  match c with
  | .h264 => 0#8
  | .aac => BitVec.ofNat 8 data.length

/-- The stored bytes: for AAC the data vector is copied to the indices from 0 on, and the bytes above keep what they
held. For H264 nothing is written (R57, R171). -/
def storedAscBuf (c : Codec) (data : Bytes) (m : Memory) : Memory :=
  match c with
  | .h264 => m
  | .aac => m.writeBytes 0 data

/-- `MemRead(ASC, 0, ASC_LEN)`: the configuration an emission command reads (R170). -/
def State.asc (s : State) : Bytes := s.ascBuf.readBytes 0 s.ascLen.toNat

end Sys2Proof.Machine
end

