-- ==== Sys2Proof/Machine/Construction.lean ====
section
/-! DEFINITION. INIT, the construction of a new writer (44_commands.md R171), and what an INIT with a reserved codec
does (R171, R204). -/

namespace Sys2Proof.Machine

/-- `DoInit` of R171: the configuration is replaced, the counter restarts, and a fault is cleared. OUT is not
touched. INIT is accepted while FAULT is set (R205). -/
def State.doInit (s : State) (c : Codec) (data : Bytes) : State :=
  ({ s with
      codec := c
      ascLen := storedAscLen c data
      ascBuf := storedAscBuf c data s.ascBuf
      cc := 0#4
      cfgValid := true }).clearFault.complete

/-- `INIT` (R171). A data vector longer than the command word's length field can say is no transaction (R74). -/
def execInit (c : Codec) (data : Bytes) (s : State) : Host.Outcome State Fault Refusal :=
  if data.length ≤ ascLenMax then .next (s.doInit c data) else .fault .malformedTransaction

/-- A command word that is no command: it records its fault, and while FAULT is set it has no effect (R201, R205). -/
def State.doIllegal (s : State) : State := (s.raiseFault .illegalCommand).complete

/-- An INIT with a reserved codec: no writer is constructed, so `CFG_VALID` is cleared, and the fault is recorded.
While FAULT is set it has no effect (R170, R171, R205). -/
def State.doBadCodec (s : State) : State :=
  if s.fault then s.complete
  else (({ s with cfgValid := false }).raiseFault .unsupportedCodec).complete

end Sys2Proof.Machine
end

