-- ==== Sys2Proof/Machine/Flags.lean ====
section
/-! DEFINITION. The codes of `CAUSE` (60_exceptions.md R200) and the STATUS register (10_state.md R29). The block has no
condition codes, carry or predicates (R27). -/

namespace Sys2Proof.Machine

/-- The 4-bit code of a fault cause (R200). -/
def Cause.code : Cause → BitVec 4
  | .none => 0#4
  | .illegalCommand => 1#4
  | .unsupportedCodec => 2#4
  | .sectionTooLarge => 3#4
  | .notConfigured => 4#4

/-- STATUS's `CODEC` field: `CODEC` while a writer is configured, else 0 (R29). -/
def State.statusCodec (s : State) : BitVec 2 := if s.cfgValid then s.codec.code else 0#2

/-- The 8-bit read-only STATUS register: `CAUSE`, `CODEC`, `CFG_VALID`, `FAULT`, from bit 7 down (R29). -/
def State.status (s : State) : BitVec 8 :=
  s.cause.code ++ (s.statusCodec ++ (BitVec.ofBool s.cfgValid ++ BitVec.ofBool s.fault))

end Sys2Proof.Machine
end

