-- ==== Sys2Proof/Machine/Counter.lean ====
section
/-! DEFINITION. The Continuity Counter of 40_continuity_counter.md. -/

namespace Sys2Proof.Machine

/-- One step of the counter, modulo 16, wrapping silently (R101). -/
def nextCc (c : BitVec 4) : BitVec 4 := c + 1#4

/-- `current()`: read the counter without changing it (R100). -/
def State.current (s : State) : BitVec 4 := s.cc

/-- `advance()`: increment the counter modulo 16 (R101). -/
def State.advance (s : State) : State := { s with cc := nextCc s.cc }

end Sys2Proof.Machine
end

