-- ==== Sys2Proof/Machine/Crc32.lean ====
section
/-! DEFINITION. The CRC-32/MPEG2 engine of 41_crc32.md. `crc32` is the bitwise form of R111. `crc32ByTable` is the
byte-at-a-time form of R115, which the machine does not use. -/

namespace Sys2Proof.Machine

/-- The polynomial (R110). -/
def crcPoly : BitVec 32 := 0x04C11DB7#32

/-- The initial register (R110). -/
def crcInit : BitVec 32 := 0xFFFFFFFF#32

/-- One bit step: shift left, and subtract the polynomial if the top bit was set (R111). -/
def crcBit (c : BitVec 32) : BitVec 32 :=
  if c.msb then (c <<< 1) ^^^ crcPoly else c <<< 1

/-- `n` bit steps. -/
def crcBits : Nat → BitVec 32 → BitVec 32
  | 0, c => c
  | n + 1, c => crcBits n (crcBit c)

/-- One byte: it is added into the top byte of the register, then eight bit steps follow (R111). -/
def crcByte (c : BitVec 32) (b : Byte) : BitVec 32 :=
  crcBits 8 (c ^^^ (b.zeroExtend 32 <<< 24))

/-- The register after `data`, started from `c`. -/
def crcFrom : BitVec 32 → Bytes → BitVec 32
  | c, [] => c
  | c, b :: rest => crcFrom (crcByte c b) rest

/-- `Crc32Mpeg2(data)`: no final XOR and no reflection (R110, R111). -/
def crc32 (data : Bytes) : BitVec 32 := crcFrom crcInit data

/-- Entry `i` of R115's table: the eight bit steps started from `i << 24`. -/
def crcTable (i : Byte) : BitVec 32 := crcBits 8 (i.zeroExtend 32 <<< 24)

/-- R115's byte step: `((c << 8) mod 2^32) ^ T[(c >> 24) ^ b]`. -/
def crcByteByTable (c : BitVec 32) (b : Byte) : BitVec 32 :=
  (c <<< 8) ^^^ crcTable ((c >>> 24).truncate 8 ^^^ b)

/-- The register after `data`, started from `c`, by table. -/
def crcFromByTable : BitVec 32 → Bytes → BitVec 32
  | c, [] => c
  | c, b :: rest => crcFromByTable (crcByteByTable c b) rest

/-- The byte-at-a-time form of the engine (R115). -/
def crc32ByTable (data : Bytes) : BitVec 32 := crcFromByTable crcInit data

end Sys2Proof.Machine
end

