-- ==== Sys2Proof/Machine/SectionBuilder.lean ====
section
/-! DEFINITION. The PMT Section Builder of 42_section_builder.md. The bytes are packed from the fields of R121's table, in
its order and most significant bit first (R11). It reads the configuration and writes no state (R120). -/

namespace Sys2Proof.Machine

/-- The emission modes (R15, R32). They are no state: a command chooses them. -/
inductive Mode where
  | clear
  | clearLeadFirst
  | clearLeadSecond
  | encrypted
deriving DecidableEq, Repr

/-- Does the mode announce encrypted content (R134)? -/
def Mode.isEncrypted : Mode → Bool
  | .clear => false
  | .clearLeadFirst => false
  | .clearLeadSecond => true
  | .encrypted => true

/-- version_number per mode, independent of history (R122). -/
def Mode.version : Mode → BitVec 5
  | .clear => 0#5
  | .clearLeadFirst => 0#5
  | .clearLeadSecond => 1#5
  | .encrypted => 0#5

/-- current_next_indicator per mode (R122). -/
def Mode.currentNext : Mode → BitVec 1
  | .clear => 1#1
  | .clearLeadFirst => 1#1
  | .clearLeadSecond => 0#1
  | .encrypted => 1#1

/-- stream_type per codec and mode, the table of R123. -/
def streamType (c : Codec) (m : Mode) : Byte :=
  match c with
  | .h264 => if m.isEncrypted then 0xDB#8 else 0x1B#8
  | .aac => if m.isEncrypted then 0xCF#8 else 0x0F#8

/-- A descriptor: its tag, the length of its payload in one byte, and its payload (R127). DESIGN CHOICE: where the length
does not fit in a byte, the byte holds its low 8 bits. This is the AAC registration descriptor with N of 244 to 255, where
`12 + N` is above 255 and no rule says what stands there. Such a section is built (R135) and never emitted (R154). See
notes/assumptions/13.md. -/
def descriptor (tag : Byte) (payload : Bytes) : Bytes :=
  tag :: BitVec.ofNat 8 payload.length :: payload

/-- The marker that names the codec family (R126). -/
def codecMarker : Codec → Bytes
  | .h264 => markerZavc
  | .aac => markerAacd

/-- The private-data-indicator descriptor, tag 0x0F (R126). -/
def privateDataIndicator (c : Codec) : Bytes := descriptor 0x0F#8 (codecMarker c)

/-- The AAC setup data: format identifier, audio type, priming 0, version 1, length, and the stored bytes (R128). -/
def setupData (asc : Bytes) : Bytes :=
  markerApad ++ (markerZaac ++ (be16 0x0000#16 ++ (0x01#8 :: BitVec.ofNat 8 asc.length :: asc)))

/-- The AAC registration descriptor, tag 0x05 (R128). -/
def registration (asc : Bytes) : Bytes := descriptor 0x05#8 (setupData asc)

/-- The ES descriptors per codec and mode, in emission order (R125). -/
def esDescriptors (c : Codec) (m : Mode) (asc : Bytes) : Bytes :=
  if m.isEncrypted then
    match c with
    | .h264 => privateDataIndicator .h264
    | .aac => privateDataIndicator .aac ++ registration asc
  else []

/-- Two bytes that hold four leading bits and a 12-bit length (R121). -/
def lengthField (top : BitVec 4) (n : Nat) : Bytes := be16 (top ++ BitVec.ofNat 12 n)

/-- Two bytes that hold three leading bits and a PID (R121, R150). -/
def pidField (top : BitVec 3) (pid : Pid) : Bytes := be16 (top ++ pid)

/-- section_length: what follows the field, through the CRC (R129). -/
def sectionLength (descriptors : Bytes) : Nat := 18 + descriptors.length

/-- The byte of the reserved bits, version_number and current_next_indicator (R121, R122). -/
def versionByte (m : Mode) : Byte := 0b11#2 ++ (m.version ++ m.currentNext)

/-- The section body, table_id through the last descriptor byte, around given descriptors (R15, R121). The top bits of
the length field are section_syntax_indicator 1, a '0' bit and reserved 0b11. -/
def sectionBodyWith (c : Codec) (m : Mode) (descriptors : Bytes) : Bytes :=
  tableId :: lengthField 0b1011#4 (sectionLength descriptors) ++
  be16 programNumber ++
  [versionByte m, 0x00#8, 0x00#8] ++
  pidField 0b111#3 esPid ++
  lengthField 0b1111#4 0 ++
  streamType c m :: pidField 0b111#3 esPid ++
  lengthField 0b1111#4 descriptors.length ++
  descriptors

/-- The section body of a codec, a mode and a stored configuration. -/
def sectionBody (c : Codec) (m : Mode) (asc : Bytes) : Bytes :=
  sectionBodyWith c m (esDescriptors c m asc)

/-- `BuildSection` of R134: the pointer field, the body, and the body's CRC (R113, R130). -/
def buildSection (c : Codec) (m : Mode) (asc : Bytes) : Bytes :=
  0x00#8 :: (sectionBody c m asc ++ be32 (crc32 (sectionBody c m asc)))

end Sys2Proof.Machine
end

