-- ==== Sys2Proof/Machine/Framer.lean ====
section
/-! DEFINITION. The TS Packet Framer of 43_ts_framer.md. -/

namespace Sys2Proof.Machine

/-- The first three bytes: the sync byte, then transport_error_indicator 0, payload_unit_start_indicator 1,
transport_priority 0 and the PMT's PID (R150, R151). -/
def packetPrefix : Bytes := syncByte :: pidField 0b010#3 pmtPid

/-- Byte 3: transport_scrambling_control 0b00, adaptation_field_control 0b11, and the counter (R150). -/
def counterByte (cc : BitVec 4) : Byte := 0b0011#4 ++ cc

/-- The stuffing count for a section of `n` bytes (R153). -/
def stuffingCount (n : Nat) : Nat := maxSectionBytes - n

/-- adaptation_field_length: the flags byte and the stuffing (R152). -/
def adaptationFieldLength (n : Nat) : Byte := BitVec.ofNat 8 (stuffingCount n + 1)

/-- `FramePacket` of R156, for a section of at most `MAX_SECTION_BYTES` bytes. -/
def framePacket (sec : Bytes) (cc : BitVec 4) : Bytes :=
  packetPrefix ++
  [counterByte cc, adaptationFieldLength sec.length, 0x00#8] ++
  List.replicate (stuffingCount sec.length) stuffingByte ++
  sec

/-- Each section in its own packet, in order, the counter advancing once after each (R155, R158). -/
def framePackets : List Bytes → BitVec 4 → Bytes
  | [], _ => []
  | sec :: rest, cc => framePacket sec cc ++ framePackets rest (nextCc cc)

/-- The counter after one `advance()` for each section (R155). -/
def ccAfter : List Bytes → BitVec 4 → BitVec 4
  | [], cc => cc
  | _ :: rest, cc => ccAfter rest (nextCc cc)

/-- Does the size guard of R154 refuse the section? -/
def tooLarge (sec : Bytes) : Bool := maxSectionBytes < sec.length

/-- The commit of R156: all packets are appended and the counter is written, and the command is complete (R53). -/
def State.commitPackets (s : State) (secs : List Bytes) : State :=
  ({ s.append (framePackets secs s.current) with cc := ccAfter secs s.current }).complete

/-- `EmitPackets` of R156, all or nothing (R53): a section that does not fit faults before anything is appended. When
all fit, the command is held for as long as the sink cannot take its bytes (R58). -/
def State.emitPackets (s : State) (secs : List Bytes) : State :=
  if secs.any tooLarge then (s.raiseFault .sectionTooLarge).complete
  else if s.sinkAccepts (tsPacketSize * secs.length) then s.commitPackets secs
  else s.holdForSink

end Sys2Proof.Machine
end

