-- ==== Sys2Proof/Machine/Emission.lean ====
section
/-! DEFINITION. The three emission commands of 44_commands.md (R172 to R174), each one line over `DoEmit` of R170. -/

namespace Sys2Proof.Machine

/-- The sections of one command, built from the stored configuration (R170). -/
def State.sections (s : State) (modes : List Mode) : List Bytes :=
  modes.map (fun m => buildSection s.codec m s.asc)

/-- `DoEmit` of R170, under the sticky fault of R205: while FAULT is set the command has no effect, and without a
configured writer it faults NOT_CONFIGURED (R201). -/
def State.doEmit (s : State) (modes : List Mode) : State :=
  if s.fault then s.complete
  else if s.cfgValid then s.emitPackets (s.sections modes)
  else (s.raiseFault .notConfigured).complete

/-- `WRITE_CLEAR` (R172). -/
def execWriteClear (s : State) : Host.Outcome State Fault Refusal :=
  .next (s.doEmit [.clear])

/-- `WRITE_CLEAR_LEAD` (R173). -/
def execWriteClearLead (s : State) : Host.Outcome State Fault Refusal :=
  .next (s.doEmit [.clearLeadFirst, .clearLeadSecond])

/-- `WRITE_ENCRYPTED` (R174). -/
def execWriteEncrypted (s : State) : Host.Outcome State Fault Refusal :=
  .next (s.doEmit [.encrypted])

end Sys2Proof.Machine
end

