-- ==== Sys2Proof/Machine/Dispatch.lean ====
section
/-! DEFINITION. One arm for each command (44_commands.md R170). -/

namespace Sys2Proof.Machine

/-- The meaning of a decoded command. -/
def exec (i : Instr) (s : State) : Host.Outcome State Fault Refusal :=
  match i with
  | .writeClear => Sys2Proof.Machine.execWriteClear s
  | .writeClearLead => Sys2Proof.Machine.execWriteClearLead s
  | .writeEncrypted => Sys2Proof.Machine.execWriteEncrypted s
  | .init c data => Sys2Proof.Machine.execInit c data s

end Sys2Proof.Machine
end

