-- ==== Sys2Proof/Machine/Port.lean ====
section
/-! DEFINITION. The host's interactions with the block (10_state.md R40 to R43): a command transaction, RESET, a STATUS
read, and the host's own operations on OUT. Each is served whole before the next (20_memory.md R59). -/

namespace Sys2Proof.Machine

/-- A transaction at the port's head: decode it (R75) and run the command, or record what its word faults (R170). -/
def State.serveCommand (s : State) (w : CmdWord) (data : Bytes) : Host.Outcome State Fault Refusal :=
  match decode w data with
  | .ok i => exec i s
  | .error .illegalCommand => .next s.doIllegal
  | .error .unsupportedCodec => .next s.doBadCodec
  | .error .wrongDataLength => .fault .malformedTransaction

/-- RESET at the port's head (R230). -/
def State.serveReset (s : State) : State := s.applyReset.complete

/-- RESET after the command that began in `s` and led to `t`. A command that is held for room has not completed, and
RESET waits for it with the command. -/
def State.resetAfter (s t : State) : State :=
  if t.port.length < s.port.length then t.applyReset else t

/-- A command during which RESET arrives (R230, U8): either it completes and then the reset happens, or it never
started. The platform's choice is free. No partial packet is admitted. DESIGN CHOICE: the spec does not say when the outcome
is settled for a command that is held for room. Here each step that serves it takes a new choice, so a RESET that waited with
it can still find that it never started. See notes/assumptions/7.md. -/
def State.serveCommandDuringReset (s : State) (w : CmdWord) (data : Bytes) : Host.Outcome State Fault Refusal :=
  if Config.commandBeatsReset s.choices then
    match ({ s with choices := s.choices + 1 }).serveCommand w data with
    | .next t => .next (s.resetAfter t)
    | .fault r => .fault r
    | .refused r => .refused r
  else .next ({ s with choices := s.choices + 1 }).serveReset

/-- A STATUS read: the host is told the value, and nothing else changes (R29, R40). -/
def State.serveReadStatus (s : State) : State := { s.complete with reply := some (.status s.status) }

/-- The host's `clear` of OUT: no block state changes (R43). -/
def State.serveClearOut (s : State) : State := { s.complete with out := [] }

/-- The host drains OUT between commands (R41): no block state changes. -/
def State.serveDrainOut (s : State) (n : Nat) : State := s.complete.drainOut n

/-- The host's `current_size` of OUT (R43). -/
def State.serveReadOutSize (s : State) : State := { s.complete with reply := some (.outSize s.out.length) }

/-- The interaction at the port's head is served. With none, the block is idle and every state element keeps its
value (R224). -/
def State.serve (s : State) : Host.Outcome State Fault Refusal :=
  match s.port with
  | [] => .next s
  | .command w data :: _ => s.serveCommand w data
  | .commandDuringReset w data :: _ => s.serveCommandDuringReset w data
  | .reset :: _ => .next s.serveReset
  | .readStatus :: _ => .next s.serveReadStatus
  | .clearOut :: _ => .next s.serveClearOut
  | .drainOut n :: _ => .next (s.serveDrainOut n)
  | .readOutSize :: _ => .next s.serveReadOutSize

/-- The host presents a transaction that the next step serves. -/
def State.present (s : State) (w : CmdWord) (data : Bytes) : State :=
  { s with port := .command w data :: s.port }

end Sys2Proof.Machine
end

