-- ==== Sys2Proof/Machine/Step.lean ====
section
/-! DEFINITION. One step of the machine: one interaction of the host (10_state.md R40). -/

namespace Sys2Proof.Machine

/-- One step (R40): a function of the state alone, the host's next interaction being the head of its port. -/
def step (s : State) : Host.Outcome State Fault Refusal := s.serve

/-- `s` with the command of a table row presented first at the port, its data vector all zeros: the block fetches no
instructions (R21), so what a program counter would point at is the port's head. -/
def State.withFetchWord (s : State) (nbits w : Nat) : State :=
  s.present (tableWord nbits w) (zeroData (tableWord nbits w))

end Sys2Proof.Machine
end

