-- ==== Sys2Proof/Machine/System.lean ====
section
/-! DEFINITION. Several block instances (60_exceptions.md R221): `N_INST` machines that share nothing. The host decides
which one it talks to next. -/

namespace Sys2Proof.Machine

/-- The instances of a system. Their number is the open parameter `N_INST` (R10). -/
structure System where
  instances : List State
deriving DecidableEq, Repr

/-- Instance `k` takes one step and every other one keeps its state (R41, R221). `none`: there is no instance `k`,
or its step stops. DESIGN CHOICE: the free values of Config know the count of choices and not the instance, so two instances
with equal counts choose alike, which the spec does not say. See notes/assumptions/8.md. -/
def System.stepInstance (sys : System) (k : Nat) : Option System :=
  match sys.instances[k]? with
  | none => none
  | some s =>
    match step s with
    | .next t => some { instances := sys.instances.set k t }
    | .fault _ => none
    | .refused _ => none

end Sys2Proof.Machine
end

