-- ==== Sys2Proof/Safety.lean ====
section
/-! DEFINITION. The terms in which claims about the machine are made: well-formed transactions, the invariant of the
block's state, what two states share, and how packets lie in OUT. -/

namespace Sys2Proof.Machine

/-! ## Transactions -/

/-- The data vector has the length its command word fixes (R74). A word that is no command fixes none. -/
def dataFits (w : CmdWord) (data : Bytes) : Bool :=
  match decodeWord w with
  | .init _ n => data.length == n.toNat
  | .writeClear => data.isEmpty
  | .writeClearLead => data.isEmpty
  | .writeEncrypted => data.isEmpty
  | .badCodec => true
  | .illegal => true

/-- An interaction whose transaction, if it has one, is one that R74 allows. -/
def HostEvent.wf : HostEvent → Bool
  | .command w data => dataFits w data
  | .commandDuringReset w data => dataFits w data
  | .reset => true
  | .readStatus => true
  | .clearOut => true
  | .drainOut _ => true
  | .readOutSize => true

/-- Does the word decode to a well-formed INIT, the only command accepted while FAULT is set (R205)? -/
def isInitWord (w : CmdWord) : Bool :=
  match decodeWord w with
  | .init _ _ => true
  | .writeClear => false
  | .writeClearLead => false
  | .writeEncrypted => false
  | .badCodec => false
  | .illegal => false

/-- An interaction that can construct a writer or reset the block: a well-formed INIT, or a RESET. -/
def HostEvent.restarts : HostEvent → Bool
  | .command w _ => isInitWord w
  | .commandDuringReset _ _ => true
  | .reset => true
  | .readStatus => false
  | .clearOut => false
  | .drainOut _ => false
  | .readOutSize => false

/-- An interaction by which the host takes bytes out of OUT (R41, R43). -/
def HostEvent.takesBytes : HostEvent → Bool
  | .command _ _ => false
  | .commandDuringReset _ _ => false
  | .reset => false
  | .readStatus => false
  | .clearOut => true
  | .drainOut _ => true
  | .readOutSize => false

/-- A way of making room that takes bytes out of OUT. -/
def SinkGrant.takesBytes : SinkGrant → Bool
  | .capacity _ => false
  | .drain _ => true

/-! ## Runs -/

/-- `n` steps, one after the other, as long as each leads to a next state. -/
def runSteps : Nat → State → Host.Outcome State Fault Refusal
  | 0, s => .next s
  | n + 1, s =>
    match step s with
    | .next t => runSteps n t
    | .fault r => .fault r
    | .refused r => .refused r

/-! ## The invariant -/

/-- What every reachable state of the block satisfies. -/
structure State.Inv (s : State) : Prop where
  /-- ASC_BUF is in canonical form, within its 255 bytes (R50). -/
  ascBuf_wf : s.ascBuf.wf
  /-- FAULT is set exactly when a cause is recorded (R27, R28). -/
  fault_iff : s.fault = true ↔ s.cause ≠ .none
  /-- An H264 writer stores no configuration (R25). -/
  h264_empty : s.codec = .h264 → s.ascLen = 0#8
  /-- Without a writer and without a fault, the block is as RESET left it (R26, R230). -/
  unconfigured : s.cfgValid = false → s.fault = false → s.cc = 0#4 ∧ s.codec = .h264 ∧ s.ascLen = 0#8
  /-- NOT_CONFIGURED is recorded only where no writer is (R201). -/
  notConfigured : s.cause = .notConfigured → s.cfgValid = false
  /-- UNSUPPORTED_CODEC leaves no writer (R204). -/
  unsupportedCodec : s.cause = .unsupportedCodec → s.cfgValid = false
  /-- SECTION_TOO_LARGE is recorded only for an AAC writer of more than 140 bytes (R154, R201). -/
  sectionTooLarge : s.cause = .sectionTooLarge → s.cfgValid = true ∧ s.codec = .aac ∧ 140 < s.ascLen.toNat

/-! ## What two states share -/

/-- The configuration is the same: CFG_VALID, CODEC, ASC_LEN and every byte of ASC_BUF. -/
structure State.SameConfig (s t : State) : Prop where
  cfgValid : t.cfgValid = s.cfgValid
  codec : t.codec = s.codec
  ascLen : t.ascLen = s.ascLen
  ascBuf : ∀ a, t.ascBuf.read a = s.ascBuf.read a

/-- FAULT and CAUSE are the same. -/
structure State.SameFault (s t : State) : Prop where
  fault : t.fault = s.fault
  cause : t.cause = s.cause

/-- The host's side but for OUT and the port is the same. -/
structure State.SameHost (s t : State) : Prop where
  outCapacity : t.outCapacity = s.outCapacity
  sinkGrants : t.sinkGrants = s.sinkGrants
  reply : t.reply = s.reply
  choices : t.choices = s.choices

/-- Everything is the same but that the interaction at the port's head is over: a command that has no effect. -/
def State.Ignored (s t : State) : Prop := t = { s with port := s.port.tail }

/-- The command recorded a fault and had no other effect (R203, R204). -/
structure State.Faulted (s t : State) (code : Cause) : Prop where
  fault : t.fault = true
  cause : t.cause = code
  cc : t.cc = s.cc
  config : s.SameConfig t
  out : t.out = s.out
  port : t.port = s.port.tail
  host : s.SameHost t

/-! ## Bytes as numbers -/

/-- The number that bytes spell, the most significant byte first (R11). -/
def beNat (bs : Bytes) : Nat := bs.foldl (fun acc b => acc * 256 + b.toNat) 0

/-- Bits `hi` down to `lo` of the number spelled by the `len` bytes from offset `off` on (R11). -/
def bitsAt (bs : Bytes) (off len hi lo : Nat) : Nat :=
  beNat ((bs.drop off).take len) / 2 ^ lo % 2 ^ (hi - lo + 1)

/-! ## Packets in OUT -/

/-- `ps` are packets of 188 bytes, the `k`-th carrying `k mod 16` in the low four bits of byte 3 (R103, R157). -/
def stamped (ps : List Bytes) : Prop :=
  ∀ k p, ps[k]? = some p → p.length = 188 ∧ ∃ b, p[3]? = some b ∧ b.toNat % 16 = k % 16

/-- Since the last INIT or RESET, when OUT held `base`, the packets `ps` were appended and the host took the first `taken`
bytes, and `CC` counts the packets (R103). -/
def State.CountsFrom (s : State) (base : Bytes) (ps : List Bytes) (taken : Nat) : Prop :=
  taken ≤ (base ++ ps.flatten).length ∧ s.out = (base ++ ps.flatten).drop taken ∧ stamped ps ∧
    s.cc.toNat = ps.length % 16

/-- The bytes that `n` steps from `s` append to OUT, in order: those by which OUT is longer after a step than before. No
step both appends to OUT and takes bytes out of it. -/
def appendedOver : Nat → State → Bytes
  | 0, _ => []
  | n + 1, s =>
    match step s with
    | .next t => t.out.drop s.out.length ++ appendedOver n t
    | .fault _ => []
    | .refused _ => []

/-- The number of bytes that `n` steps from `s` take out of OUT: those by which OUT is shorter after a step than before. -/
def takenOver : Nat → State → Nat
  | 0, _ => 0
  | n + 1, s =>
    match step s with
    | .next t => (s.out.length - t.out.length) + takenOver n t
    | .fault _ => 0
    | .refused _ => 0

end Sys2Proof.Machine
end

