-- ==== Sys2Proof/Certificates/Slice0/Obligations.lean ====
section
/-! DEFINITION. What is claimed of the machine. Each statement's docstring names the rules it formalises. A statement's
bytes and numbers are written out from the spec's tables, not taken from the model's own functions. -/

open Sys2Proof Sys2Proof.Machine

namespace Sys2Proof.Claims

/-! ## Byte strings the spec writes out -/

/-- One byte from a number. -/
def u8 (n : Nat) : Byte := BitVec.ofNat 8 n

/-- The stored configuration, byte by byte in index order (R52). -/
def storedBytes (s : State) : Bytes := (List.range s.ascLen.toNat).map (fun i => s.ascBuf.read i)

/-- A body, framed by the pointer field and its CRC, most significant byte first (R113, R130). -/
def withCrc (body : Bytes) : Bytes :=
  0x00#8 :: body ++ [u8 ((crc32 body).toNat / 2 ^ 24), u8 ((crc32 body).toNat / 2 ^ 16),
    u8 ((crc32 body).toNat / 2 ^ 8), u8 (crc32 body).toNat]

/-- The clear sections of R140, with their CRCs as the spec writes them. -/
def clearSection : Codec → Bytes
  | .h264 => [0x00#8, 0x02#8, 0xB0#8, 0x12#8, 0x00#8, 0x01#8, 0xC1#8, 0x00#8, 0x00#8, 0xE0#8, 0x50#8,
      0xF0#8, 0x00#8, 0x1B#8, 0xE0#8, 0x50#8, 0xF0#8, 0x00#8, 0x43#8, 0x49#8, 0x97#8, 0xBE#8]
  | .aac => [0x00#8, 0x02#8, 0xB0#8, 0x12#8, 0x00#8, 0x01#8, 0xC1#8, 0x00#8, 0x00#8, 0xE0#8, 0x50#8,
      0xF0#8, 0x00#8, 0x0F#8, 0xE0#8, 0x50#8, 0xF0#8, 0x00#8, 0xE0#8, 0x6F#8, 0x1A#8, 0x31#8]

/-- The encrypted AAC body of R128 and R142, with byte 6 of the section as `v`. -/
def aacBody (v : Byte) (asc : Bytes) : Bytes :=
  [0x02#8, 0xB0#8, u8 (38 + asc.length), 0x00#8, 0x01#8, v, 0x00#8, 0x00#8, 0xE0#8, 0x50#8, 0xF0#8, 0x00#8,
    0xCF#8, 0xE0#8, 0x50#8, 0xF0#8, u8 (20 + asc.length), 0x0F#8, 0x04#8, 0x61#8, 0x61#8, 0x63#8, 0x64#8,
    0x05#8, u8 (12 + asc.length), 0x61#8, 0x70#8, 0x61#8, 0x64#8, 0x7A#8, 0x61#8, 0x61#8, 0x63#8,
    0x00#8, 0x00#8, 0x01#8, u8 asc.length] ++ asc

/-- The H264 ClearLeadSecond section of R142. -/
def h264Second : Bytes :=
  [0x00#8, 0x02#8, 0xB0#8, 0x18#8, 0x00#8, 0x01#8, 0xC2#8, 0x00#8, 0x00#8, 0xE0#8, 0x50#8, 0xF0#8, 0x00#8,
    0xDB#8, 0xE0#8, 0x50#8, 0xF0#8, 0x06#8, 0x0F#8, 0x04#8, 0x7A#8, 0x61#8, 0x76#8, 0x63#8,
    0x2E#8, 0xAB#8, 0xF2#8, 0x54#8]

/-- The H264 Encrypted section of R143. -/
def h264Encrypted : Bytes :=
  [0x00#8, 0x02#8, 0xB0#8, 0x18#8, 0x00#8, 0x01#8, 0xC1#8, 0x00#8, 0x00#8, 0xE0#8, 0x50#8, 0xF0#8, 0x00#8,
    0xDB#8, 0xE0#8, 0x50#8, 0xF0#8, 0x06#8, 0x0F#8, 0x04#8, 0x7A#8, 0x61#8, 0x76#8, 0x63#8,
    0xA9#8, 0xC2#8, 0x95#8, 0x7C#8]

/-- The ClearLeadSecond section of the configured writer (R142). -/
def secondSection (s : State) : Bytes :=
  match s.codec with
  | .h264 => h264Second
  | .aac => withCrc (aacBody 0xC2#8 (storedBytes s))

/-- The Encrypted section of the configured writer (R143). -/
def encryptedSection (s : State) : Bytes :=
  match s.codec with
  | .h264 => h264Encrypted
  | .aac => withCrc (aacBody 0xC1#8 (storedBytes s))

/-- A packet around a section, with counter value `cc`: the header bytes, the stuffing and the section (R150). -/
def packetOf (cc : Nat) (sec : Bytes) : Bytes :=
  [0x47#8, 0x40#8, 0x20#8, u8 (0x30 + cc % 16), u8 (183 - sec.length), 0x00#8] ++
    List.replicate (182 - sec.length) 0xFF#8 ++ sec

/-- The command succeeded: these bytes were appended, the counter advanced by the number of packets, and
nothing else changed but that the command is over. -/
structure Emitted (s t : State) (bytes : Bytes) (packets : Nat) : Prop where
  out : t.out = s.out ++ bytes
  cc : t.cc.toNat = (s.cc.toNat + packets) % 16
  config : s.SameConfig t
  faultState : s.SameFault t
  port : t.port = s.port.tail
  host : s.SameHost t

/-- The host's sink can take `n` more bytes (R58). -/
def HasRoom (s : State) (n : Nat) : Prop :=
  s.outCapacity = none ∨ ∃ c, s.outCapacity = some c ∧ s.out.length + n ≤ c

/-- Ready to emit `n` bytes: no fault, a configured writer, and room in the host's sink (R58, R201). -/
structure Ready (s : State) (n : Nat) : Prop where
  fault : s.fault = false
  cfgValid : s.cfgValid = true
  room : HasRoom s n

/-- R76's illegal words: a reserved OP, or a set reserved bit. -/
def IllegalWord (w : CmdWord) : Prop :=
  (w.toNat % 16 = 0 ∨ 5 ≤ w.toNat % 16) ∨
  (w.toNat % 16 = 4 ∧ w.toNat / 64 % 4 ≠ 0) ∨
  (1 ≤ w.toNat % 16 ∧ w.toNat % 16 ≤ 3 ∧ w.toNat / 16 ≠ 0)

/-- R72's INIT words with a reserved codec. -/
def ReservedCodecWord (w : CmdWord) : Prop :=
  w.toNat % 16 = 4 ∧ w.toNat / 64 % 4 = 0 ∧ 2 ≤ w.toNat / 16 % 4

/-- The emission commands. -/
def isEmission : Instr → Prop
  | .writeClear => True
  | .writeClearLead => True
  | .writeEncrypted => True
  | .init _ _ => False

/-- The sink's capacity and OUT after the host has made room in one way. -/
def afterGrant (o : Nat × Bytes) : SinkGrant → Nat × Bytes
  | .capacity n => (o.1 + n, o.2)
  | .drain n => (o.1, o.2.drop n)

/-- The number of packets an emission command appends. -/
def packetsOf (i : Instr) : Nat := if i = .writeClearLead then 2 else 1

/-- The byte length of R136's ES descriptors. -/
def descriptorBytes (c : Codec) (m : Mode) (n : Nat) : Nat :=
  match c, m with
  | .h264, .clear => 0
  | .h264, .clearLeadFirst => 0
  | .h264, .clearLeadSecond => 6
  | .h264, .encrypted => 6
  | .aac, .clear => 0
  | .aac, .clearLeadFirst => 0
  | .aac, .clearLeadSecond => 20 + n
  | .aac, .encrypted => 20 + n

/-- The stream_type table of R123. -/
def streamTypeOf (c : Codec) (m : Mode) : Nat :=
  match c, m with
  | .h264, .clear => 0x1B
  | .h264, .clearLeadFirst => 0x1B
  | .h264, .clearLeadSecond => 0xDB
  | .h264, .encrypted => 0xDB
  | .aac, .clear => 0x0F
  | .aac, .clearLeadFirst => 0x0F
  | .aac, .clearLeadSecond => 0xCF
  | .aac, .encrypted => 0xCF

end Sys2Proof.Claims

open Sys2Proof.Claims

/-! ## Encoding -/

/-- Decoding an encoded well-formed command gives it back (R71 to R75). -/
def Obligations.DecodeOfEncodeGivesTheCommand : Prop :=
  ∀ i : Instr, i.wf = true → decode (encode i).1 (encode i).2 = .ok i

/-- A transaction that decodes to a command is that command's encoding, so no word stands for two commands (R75). -/
def Obligations.EncodeOfDecodeGivesTheTransaction : Prop :=
  ∀ (w : CmdWord) (data : Bytes) (i : Instr), decode w data = .ok i → i.wf = true ∧ encode i = (w, data)

/-- R75's `Decode` in plain arithmetic on the 16-bit word, and what the two refused results fault. -/
def Obligations.DecodeFollowsTheFieldsOfEveryWord : Prop :=
  (∀ w : CmdWord,
    let op := w.toNat % 16
    let codec := w.toNat / 16 % 4
    let rsv := w.toNat / 64 % 4
    let n := w.toNat / 256
    decodeWord w =
      if op = 1 then (if w.toNat / 16 ≠ 0 then .illegal else .writeClear)
      else if op = 2 then (if w.toNat / 16 ≠ 0 then .illegal else .writeClearLead)
      else if op = 3 then (if w.toNat / 16 ≠ 0 then .illegal else .writeEncrypted)
      else if op = 4 then
        (if rsv ≠ 0 then .illegal
         else if 2 ≤ codec then .badCodec
         else if codec = 0 then .init .h264 (BitVec.ofNat 8 n)
         else .init .aac (BitVec.ofNat 8 n))
      else .illegal) ∧
  (∀ (s : State) (w : CmdWord) (data : Bytes) (rest : List HostEvent),
    s.port = .command w data :: rest → s.fault = false →
    (decodeWord w = .illegal → ∃ t, step s = .next t ∧ t.fault = true ∧ t.cause = .illegalCommand) ∧
    (decodeWord w = .badCodec → ∃ t, step s = .next t ∧ t.fault = true ∧ t.cause = .unsupportedCodec))

/-- The command words of R78, and illegal words of R76 and R72 beside them. -/
def Obligations.WordsOfTheSyntaxTableDecode : Prop :=
  decode 0x0004#16 [] = .ok (.init .h264 []) ∧
  decode 0x0214#16 [0x12#8, 0x10#8] = .ok (.init .aac [0x12#8, 0x10#8]) ∧
  decode 0x0001#16 [] = .ok .writeClear ∧
  decode 0x0002#16 [] = .ok .writeClearLead ∧
  decode 0x0003#16 [] = .ok .writeEncrypted ∧
  decode 0x0011#16 [] = .error .illegalCommand ∧
  decode 0x0044#16 [] = .error .illegalCommand ∧
  decode 0x0024#16 [] = .error .unsupportedCodec ∧
  decode 0x0034#16 [] = .error .unsupportedCodec

/-! ## The step -/

/-- A step on a command transaction is the decoded command's meaning, with nothing around it (R40, R170). The model's
own form of a transaction is the head of the port (notes/assumptions/2.md). -/
def Obligations.StepRunsTheDecodedCommand : Prop :=
  ∀ (s : State) (w : CmdWord) (data : Bytes) (rest : List HostEvent) (i : Instr),
    s.port = .command w data :: rest → decode w data = .ok i → step s = exec i s

/-- With nothing pending the block is idle and keeps every state element (R224). -/
def Obligations.IdleBlockKeepsItsState : Prop :=
  ∀ s : State, s.port = [] → step s = .next s

/-- R76: which words are illegal, and that one faults ILLEGAL_COMMAND and has no other effect. INIT with `CODEC` 2 or 3
is legal in form. Every other word is one of the four commands. -/
def Obligations.IllegalWordFaultsAndDoesNothingElse : Prop :=
  (∀ w : CmdWord, decodeWord w = .illegal ↔ IllegalWord w) ∧
  (∀ w : CmdWord, ¬ IllegalWord w → ¬ ReservedCodecWord w →
    decodeWord w = .writeClear ∨ decodeWord w = .writeClearLead ∨ decodeWord w = .writeEncrypted ∨
    ∃ c n, decodeWord w = .init c n) ∧
  (∀ (s : State) (w : CmdWord) (data : Bytes) (rest : List HostEvent),
    s.port = .command w data :: rest → s.fault = false → IllegalWord w →
    ∃ t, step s = .next t ∧ s.Faulted t .illegalCommand)

/-- R72: the two codecs and the two reserved codes of `CODEC`. An INIT with a reserved code faults UNSUPPORTED_CODEC,
clears CFG_VALID, and leaves the counter, the configuration store and OUT alone. -/
def Obligations.CodecFieldSelectsTheVariantOrFaults : Prop :=
  (∀ w : CmdWord, w.toNat % 16 = 4 → w.toNat / 64 % 4 = 0 →
    (w.toNat / 16 % 4 = 0 → ∃ n, decodeWord w = .init .h264 n) ∧
    (w.toNat / 16 % 4 = 1 → ∃ n, decodeWord w = .init .aac n)) ∧
  (∀ (s : State) (w : CmdWord) (data : Bytes) (rest : List HostEvent),
    s.port = .command w data :: rest → s.fault = false → ReservedCodecWord w →
    ∃ t, step s = .next t ∧ t.fault = true ∧ t.cause = .unsupportedCodec ∧ t.cfgValid = false ∧
      t.codec = s.codec ∧ t.ascLen = s.ascLen ∧ (∀ a, t.ascBuf.read a = s.ascBuf.read a) ∧
      t.cc = s.cc ∧ t.out = s.out ∧ t.port = rest ∧ s.SameHost t)

/-- The step is total over the transactions that R74 allows: it never stops (R40). -/
def Obligations.WellFormedTransactionsNeverStopTheMachine : Prop :=
  ∀ s : State, (∀ e ∈ s.port.head?, e.wf = true) → ∃ t, step s = .next t

/-- The model's only stop: a transaction whose data vector has not the length that its word fixes
(R74 says there is none: notes/assumptions/3.md). -/
def Obligations.OnlyAMalformedTransactionStops : Prop :=
  ∀ (s : State) (w : CmdWord) (data : Bytes) (rest : List HostEvent),
    s.port = .command w data :: rest →
    ((∃ r, step s = .fault r) ↔ dataFits w data = false) ∧ ∀ r, step s ≠ .refused r

/-- One command at a time (R59, R240): a step serves the port's head or leaves it, and touches nothing behind it. -/
def Obligations.InteractionsAreServedInOrder : Prop :=
  ∀ s t : State, step s = .next t → t.port = s.port ∨ t.port = s.port.tail

/-- R245, R175: with room for its bytes, a command completes in one step, whatever it is and whatever the state. A command
that appends nothing needs no room. -/
def Obligations.CommandWithRoomCompletesInOneStep : Prop :=
  ∀ (s : State) (w : CmdWord) (data : Bytes) (rest : List HostEvent),
    s.port = .command w data :: rest → dataFits w data = true →
    (∀ i, decode w data = .ok i → isEmission i → HasRoom s (188 * packetsOf i)) →
    ∃ t, step s = .next t ∧ t.port = rest

/-! ## INIT -/

/-- R171. The first part is INIT's own effect, for every state, codec and data vector of up to 255 bytes, with FAULT set
or not. The others are its word, its two exceptions, which apply only while FAULT is 0, and that no other command is
accepted while FAULT is 1. -/
def Obligations.InitConstructsAWriter : Prop :=
  (∀ (c : Codec) (data : Bytes) (s : State), data.length ≤ 255 →
    ∃ t, exec (.init c data) s = .next t ∧ t.codec = c ∧
      t.ascLen.toNat = (if c = .aac then data.length else 0) ∧
      (c = .aac → ∀ i b, data[i]? = some b → t.ascBuf.read i = b) ∧
      (∀ a, c = .h264 ∨ data.length ≤ a → t.ascBuf.read a = s.ascBuf.read a) ∧
      t.cc = 0#4 ∧ t.cfgValid = true ∧ t.fault = false ∧ t.cause = .none ∧
      t.status = (if c = .aac then 0x06#8 else 0x02#8) ∧
      t.out = s.out ∧ t.port = s.port.tail ∧ s.SameHost t) ∧
  (∀ (c : Codec) (data : Bytes), data.length ≤ 255 →
    (encode (.init c data)).1.toNat = data.length * 256 + (if c = .aac then 1 else 0) * 16 + 4) ∧
  (∀ (s : State) (w : CmdWord) (data : Bytes) (rest : List HostEvent),
    s.port = .command w data :: rest → w.toNat % 16 = 4 → w.toNat / 64 % 4 ≠ 0 ∨ 2 ≤ w.toNat / 16 % 4 →
    ∃ t, step s = .next t ∧
      (s.fault = true → s.Ignored t) ∧
      (s.fault = false → w.toNat / 64 % 4 ≠ 0 → s.Faulted t .illegalCommand) ∧
      (s.fault = false → w.toNat / 64 % 4 = 0 →
        t = { s with fault := true, cause := .unsupportedCodec, cfgValid := false, port := rest })) ∧
  (∀ (s : State) (w : CmdWord) (data : Bytes) (rest : List HostEvent),
    s.port = .command w data :: rest → dataFits w data = true → s.fault = true → isInitWord w = false →
    ∃ t, step s = .next t ∧ s.Ignored t)

/-- R232 (the spec's own inference, from R230 and R171): RESET and then a well-formed INIT give the same observable state as that INIT alone. Bytes of ASC_BUF at
index `ASC_LEN` and above can differ, and so can the count of the model's own free choices. -/
def Obligations.ResetBeforeInitMakesNoDifference : Prop :=
  ∀ (s : State) (c : Codec) (data : Bytes), data.length ≤ 255 →
    ∃ t u, exec (.init c data) s = .next t ∧ exec (.init c data) s.applyReset = .next u ∧
      t.cc = 0#4 ∧ t.fault = false ∧ t.cfgValid = true ∧ t.codec = c ∧
      u = { t with ascBuf := u.ascBuf, choices := u.choices } ∧
      (∀ a, a < t.ascLen.toNat → u.ascBuf.read a = t.ascBuf.read a) ∧
      storedBytes t = (if c = .aac then data else []) ∧ storedBytes u = storedBytes t ∧ u.status = t.status

/-! ## The emission commands -/

/-- R172. It completes on every configured writer whatever its ASC, faults NOT_CONFIGURED without a writer, and its
word with any of bits [15:4] set is illegal. -/
def Obligations.WriteClearEmitsOneClearPacket : Prop :=
  (∀ s : State, Ready s 188 →
    ∃ t, exec .writeClear s = .next t ∧ Emitted s t (packetOf s.cc.toNat (clearSection s.codec)) 1) ∧
  (∀ s : State, s.fault = false → s.cfgValid = false →
    ∃ t, exec .writeClear s = .next t ∧ s.Faulted t .notConfigured) ∧
  (∀ w : CmdWord, w.toNat % 16 = 1 → (decodeWord w = .writeClear ↔ w = 0x0001#16) ∧
    (w.toNat / 16 ≠ 0 → decodeWord w = .illegal))

/-- R173. Both packets are appended by one command, the counter advancing twice. -/
def Obligations.WriteClearLeadEmitsAPairOfPackets : Prop :=
  (∀ s : State, Ready s 376 → (s.codec = .aac → s.ascLen.toNat ≤ 140) →
    ∃ t, exec .writeClearLead s = .next t ∧
      Emitted s t (packetOf s.cc.toNat (clearSection s.codec) ++ packetOf (s.cc.toNat + 1) (secondSection s)) 2) ∧
  (∀ s : State, s.fault = false → s.cfgValid = false →
    ∃ t, exec .writeClearLead s = .next t ∧ s.Faulted t .notConfigured) ∧
  (∀ s : State, s.fault = false → s.cfgValid = true → s.codec = .aac → 140 < s.ascLen.toNat →
    ∃ t, exec .writeClearLead s = .next t ∧ s.Faulted t .sectionTooLarge) ∧
  (∀ w : CmdWord, w.toNat % 16 = 2 → (decodeWord w = .writeClearLead ↔ w = 0x0002#16) ∧
    (w.toNat / 16 ≠ 0 → decodeWord w = .illegal))

/-- R174. Its section does not depend on what was emitted before. -/
def Obligations.WriteEncryptedEmitsOneEncryptedPacket : Prop :=
  (∀ s : State, Ready s 188 → (s.codec = .aac → s.ascLen.toNat ≤ 140) →
    ∃ t, exec .writeEncrypted s = .next t ∧ Emitted s t (packetOf s.cc.toNat (encryptedSection s)) 1) ∧
  (∀ s : State, s.fault = false → s.cfgValid = false →
    ∃ t, exec .writeEncrypted s = .next t ∧ s.Faulted t .notConfigured) ∧
  (∀ s : State, s.fault = false → s.cfgValid = true → s.codec = .aac → 140 < s.ascLen.toNat →
    ∃ t, exec .writeEncrypted s = .next t ∧ s.Faulted t .sectionTooLarge) ∧
  (∀ w : CmdWord, w.toNat % 16 = 3 → (decodeWord w = .writeEncrypted ↔ w = 0x0003#16) ∧
    (w.toNat / 16 ≠ 0 → decodeWord w = .illegal))

/-- The frame of the three emission commands, on every path that goes on: no byte of ASC_BUF, no configuration
element and none of OUT's earlier bytes changes (R50, R57, R120). Where the command is held and the host drains OUT
meanwhile (R41, notes/assumptions/5.md), that drain is all that happens. -/
def Obligations.EmissionLeavesTheConfigurationAlone : Prop :=
  ∀ (i : Instr) (s t : State), isEmission i → exec i s = .next t →
    s.SameConfig t ∧ t.choices = s.choices ∧
    ((t.reply = s.reply ∧ ∃ v, t.out = s.out ++ v) ∨
     ∃ n rest, s.sinkGrants = .drain n :: rest ∧
       t = { s with out := s.out.drop n, reply := some (.drained (s.out.take n)), sinkGrants := rest })

/-- R53: with room in the sink for its bytes, an emission command appends all its packets and advances the counter once for
each, or it faults, appends nothing and leaves the counter alone. -/
def Obligations.EmissionIsAllOrNothing : Prop :=
  ∀ (i : Instr) (s : State), isEmission i → s.fault = false → HasRoom s (188 * packetsOf i) →
    ∃ t, exec i s = .next t ∧
      ((∃ v, t.out = s.out ++ v ∧ v.length = 188 * packetsOf i ∧
        t.cc.toNat = (s.cc.toNat + packetsOf i) % 16 ∧ t.fault = false ∧ t.port = s.port.tail) ∨
       ∃ code, s.Faulted t code)

/-- R58: a command whose bytes the sink cannot take is held, whatever the writer, and drops nothing. It stays at the
port's head, and only the sink's room changes while it waits, by a larger sink or by the host's drain of OUT (R41). With no
room to come it waits for ever (U10). The grants are the model's own form of the host's making room:
notes/assumptions/5.md. -/
def Obligations.CommandWithoutRoomIsHeld : Prop :=
  ∀ (i : Instr) (s : State) (c : Nat), isEmission i → s.fault = false → s.cfgValid = true →
    (i ≠ .writeClear → s.codec = .aac → s.ascLen.toNat ≤ 140) →
    s.outCapacity = some c → c < s.out.length + 188 * packetsOf i →
    (s.sinkGrants = [] → exec i s = .next s) ∧
    (∀ n rest, s.sinkGrants = .capacity n :: rest →
      exec i s = .next { s with outCapacity := some (c + n), sinkGrants := rest }) ∧
    (∀ n rest, s.sinkGrants = .drain n :: rest →
      exec i s = .next { s with
        out := s.out.drop n, reply := some (.drained (s.out.take n)), sinkGrants := rest })

/-- R58: a held command loses nothing. If the host's grants make room for its bytes, it completes after one step for each
grant that it used, and one more. It then appends, to what the host has left in OUT, the bytes that it appends on a sink
without a limit, and leaves the same CC, FAULT and CAUSE. The grants are the model's own form of the host's making room:
notes/assumptions/5.md. -/
def Obligations.HeldCommandCompletesOnceThereIsRoom : Prop :=
  ∀ (s u : State) (w : CmdWord) (i : Instr) (rest : List HostEvent) (c : Nat) (grants more : List SinkGrant),
    s.port = .command w [] :: rest → decode w [] = .ok i → isEmission i →
    s.outCapacity = some c → s.sinkGrants = grants ++ more →
    (grants.foldl afterGrant (c, s.out)).2.length + 188 * packetsOf i ≤ (grants.foldl afterGrant (c, s.out)).1 →
    exec i { s with outCapacity := none } = .next u →
    ∃ used left v t, grants = used ++ left ∧ runSteps (used.length + 1) s = .next t ∧ t.port = rest ∧
      t.sinkGrants = left ++ more ∧ u.out = s.out ++ v ∧
      t.outCapacity = some (used.foldl afterGrant (c, s.out)).1 ∧ t.out = (used.foldl afterGrant (c, s.out)).2 ++ v ∧
      t.cc = u.cc ∧ t.fault = u.fault ∧ t.cause = u.cause ∧ s.SameConfig t

/-- R177 (the spec's own inference, from R172 to R174 and R122): on fresh writers of one codec, Clear then Encrypted and ClearLead then Encrypted end in packets that differ
in the counter alone. -/
def Obligations.HistoryShowsOnlyInTheCounter : Prop :=
  ∀ (s : State), Ready s 564 → s.cc = 0#4 → (s.codec = .aac → s.ascLen.toNat ≤ 140) →
    ∃ a b c d p q, exec .writeClear s = .next a ∧ exec .writeEncrypted a = .next b ∧
      exec .writeClearLead s = .next c ∧ exec .writeEncrypted c = .next d ∧
      b.out = a.out ++ p ∧ d.out = c.out ++ q ∧ p.length = 188 ∧ q.length = 188 ∧
      p[3]? = some 0x31#8 ∧ q[3]? = some 0x32#8 ∧ ∀ k, k ≠ 3 → p[k]? = q[k]?

/-! ## Faults -/

/-- R203: the first fault is recorded, a later one is not, and nothing else changes. -/
def Obligations.RaisingAFaultKeepsTheFirstCause : Prop :=
  ∀ (s : State) (code : Cause),
    (s.fault = false → s.raiseFault code = { s with fault := true, cause := code }) ∧
    (s.fault = true → s.raiseFault code = s)

/-- R205: while FAULT is 1, every command except a well-formed INIT has no effect at all, and so neither has a stream
of such commands: nothing but the port changes. -/
def Obligations.FaultedBlockIgnoresAllButInit : Prop :=
  (∀ (s : State) (w : CmdWord) (data : Bytes) (rest : List HostEvent),
    s.port = .command w data :: rest → dataFits w data = true → s.fault = true → isInitWord w = false →
    ∃ t, step s = .next t ∧ s.Ignored t) ∧
  (∀ (n : Nat) (s : State), s.fault = true →
    (∀ e ∈ s.port, ∃ w data, e = .command w data ∧ dataFits w data = true ∧ isInitWord w = false) →
    runSteps n s = .next { s with port := s.port.drop n })

/-- R204 (the spec's own inference, from R203, R53 and R156): after a command that faults, every element has its value from before, but for FAULT, CAUSE and, for
UNSUPPORTED_CODEC only, CFG_VALID. -/
def Obligations.FaultsArePrecise : Prop :=
  ∀ (s t : State) (w : CmdWord) (data : Bytes) (rest : List HostEvent),
    s.port = .command w data :: rest → step s = .next t → s.fault = false → t.fault = true →
    t.cause ≠ .none ∧ t.cc = s.cc ∧ t.codec = s.codec ∧ t.ascLen = s.ascLen ∧
    (∀ a, t.ascBuf.read a = s.ascBuf.read a) ∧ t.out = s.out ∧ t.port = rest ∧ s.SameHost t ∧
    t.cfgValid = (if t.cause = .unsupportedCodec then false else s.cfgValid)

/-- R201, R206: which command records which cause, in the order in which the checks are made. At most one of the four
holds of a command. While FAULT is 1 no further cause is recorded. -/
def Obligations.FaultCausesHaveTheirOrder : Prop :=
  (∀ s t : State, step s = .next t → s.fault = true → t.fault = true → t.cause = s.cause) ∧
  ∀ (s t : State) (w : CmdWord) (data : Bytes) (rest : List HostEvent),
    s.port = .command w data :: rest → dataFits w data = true → step s = .next t → s.fault = false →
    (t.fault = true ∧ t.cause = .illegalCommand ↔ IllegalWord w) ∧
    (t.fault = true ∧ t.cause = .unsupportedCodec ↔ ReservedCodecWord w) ∧
    (t.fault = true ∧ t.cause = .notConfigured ↔
      (w = 0x0001#16 ∨ w = 0x0002#16 ∨ w = 0x0003#16) ∧ s.cfgValid = false) ∧
    (t.fault = true ∧ t.cause = .sectionTooLarge ↔
      (w = 0x0002#16 ∨ w = 0x0003#16) ∧ s.cfgValid = true ∧ s.codec = .aac ∧ 140 < s.ascLen.toNat)

/-- R207: a well-formed INIT and a RESET clear FAULT, nothing else does, and both set CC to 0. While FAULT stays set, its
cause stays too. A RESET that arrives during a command is one of the RESETs. -/
def Obligations.OnlyInitOrResetClearsTheFault : Prop :=
  (∀ s t : State, step s = .next t → s.fault = true → t.fault = false →
    t.cc = 0#4 ∧ ∃ e rest, s.port = e :: rest ∧ e.restarts = true) ∧
  (∀ (c : Codec) (data : Bytes) (s : State), data.length ≤ 255 →
    ∃ t, exec (.init c data) s = .next t ∧ t.fault = false ∧ t.cc = 0#4) ∧
  (∀ (s : State) (rest : List HostEvent), s.port = .reset :: rest →
    ∃ t, step s = .next t ∧ t.fault = false ∧ t.cc = 0#4) ∧
  (∀ s t : State, step s = .next t → s.fault = true → t.fault = true → t.cause = s.cause)

/-- R57: whatever the interaction, only a well-formed INIT or a RESET changes the stored configuration. -/
def Obligations.StoredConfigurationIsImmutable : Prop :=
  ∀ (s t : State) (e : HostEvent) (rest : List HostEvent), s.port = e :: rest → e.restarts = false →
    step s = .next t →
    t.codec = s.codec ∧ t.ascLen = s.ascLen ∧ ∀ a, t.ascBuf.read a = s.ascBuf.read a

/-! ## Status, RESET and the host's own operations -/

/-- R29: STATUS's fields in one byte, 0 for CODEC while no writer is configured, and 0x00 after RESET. A read tells
the host the value and changes nothing else. -/
def Obligations.StatusPacksTheFlags : Prop :=
  (∀ s : State, s.status.toNat =
    (match s.cause with
      | .none => 0
      | .illegalCommand => 1
      | .unsupportedCodec => 2
      | .sectionTooLarge => 3
      | .notConfigured => 4) * 16 +
    (if s.cfgValid then (if s.codec = .aac then 1 else 0) else 0) * 4 +
    (if s.cfgValid then 1 else 0) * 2 + (if s.fault then 1 else 0)) ∧
  (∀ s : State, s.applyReset.status = 0x00#8) ∧
  (∀ (s : State) (rest : List HostEvent), s.port = .readStatus :: rest →
    step s = .next { s with reply := some (.status s.status), port := rest })

/-- R22: the values the spec states for RESET. ASC_BUF has none. -/
def Obligations.ResetStateHasTheStatedValues : Prop :=
  State.reset.cc = 0#4 ∧ State.reset.cfgValid = false ∧ State.reset.codec = .h264 ∧ State.reset.ascLen = 0#8 ∧
  State.reset.fault = false ∧ State.reset.cause = .none ∧ State.reset.status = 0x00#8

/-- R230: RESET sets every state element and does not touch OUT. A RESET during a command admits two outcomes: the
command completed and then the reset happened, or it never started. Nothing is said of ASC_BUF's bytes. -/
def Obligations.ResetSetsEveryStateElement : Prop :=
  (∀ (s : State) (rest : List HostEvent), s.port = .reset :: rest →
    ∃ t, step s = .next t ∧ t.cc = 0#4 ∧ t.cfgValid = false ∧ t.codec = .h264 ∧ t.ascLen = 0#8 ∧
      t.fault = false ∧ t.cause = .none ∧ t.status = 0x00#8 ∧ t.out = s.out ∧ t.port = rest ∧
      t.outCapacity = s.outCapacity ∧ t.sinkGrants = s.sinkGrants ∧ t.reply = s.reply) ∧
  (∀ (s t u : State) (w : CmdWord) (data : Bytes) (rest : List HostEvent),
    s.port = .commandDuringReset w data :: rest →
    ({ s with choices := s.choices + 1 } : State).serveCommand w data = .next u → u.port = rest →
    step s = .next t →
    t = u.applyReset ∨ t = ({ s with choices := s.choices + 1, port := rest } : State).applyReset)

/-- The model's choice, notes/assumptions/7.md: where a RESET arrives during a command that is held for room, either the
command stays held and the RESET waits with it, or the command never started and the reset has happened. R230 names the
second outcome, and the first only for a command that completes. -/
def Obligations.ResetDuringAHeldCommandWaitsOrHappens : Prop :=
  ∀ (s u : State) (w : CmdWord) (data : Bytes) (rest : List HostEvent),
    s.port = .commandDuringReset w data :: rest →
    ({ s with choices := s.choices + 1 } : State).serveCommand w data = .next u → u.port = s.port →
    ∃ t, step s = .next t ∧
      (t = u ∨ t = ({ s with choices := s.choices + 1, port := rest } : State).applyReset)

/-- R43 (the spec's own inference, from R20 and R33): the host's `clear` and `current_size` touch only OUT and what the
host is told. So does its drain of OUT (R41), which takes the oldest bytes: that order is the model's choice,
notes/assumptions/5.md. -/
def Obligations.HostOperationsOnOutChangeNoBlockState : Prop :=
  ∀ (s : State) (rest : List HostEvent),
    (s.port = .clearOut :: rest → step s = .next { s with out := [], port := rest }) ∧
    (∀ n, s.port = .drainOut n :: rest → ∃ t taken left, step s = .next t ∧
      s.out = taken ++ left ∧ taken.length = min n s.out.length ∧
      t = { s with out := left, reply := some (.drained taken), port := rest }) ∧
    (s.port = .readOutSize :: rest →
      step s = .next { s with reply := some (.outSize s.out.length), port := rest })

/-! ## The continuity counter -/

/-- R100, R101: `current()` reads the counter, and `advance()` adds 1 modulo 16 and touches nothing else. -/
def Obligations.CounterAdvancesModuloSixteen : Prop :=
  ∀ s : State, s.current = s.cc ∧ s.advance.cc.toNat = (s.cc.toNat + 1) % 16 ∧
    s.advance = { s with cc := s.advance.cc }

/-- R103 (the spec's own inference, from R101, R102 and R173): after INIT or RESET the count starts. Any run of steps whose
interactions are no well-formed INIT and no RESET adds exactly the packets that it appends to OUT to those counted before:
packet k since the start carries k mod 16 and CC is their number mod 16, whatever the commands and modes were, faulting,
ignored and held ones among them, and whatever bytes the host took out of OUT meanwhile, by clearing (R43) or draining it
(R41). A run that serves no clear and no drain takes none. That a drain takes the first bytes, that it can come while a
command is held, and the form of the grants are the model's choice (notes/assumptions/5.md), and so is that the host appends
nothing of its own (notes/assumptions/14.md). -/
def Obligations.PacketsCarryTheirIndexModuloSixteen : Prop :=
  (∀ (c : Codec) (data : Bytes) (s t : State), exec (.init c data) s = .next t → t.CountsFrom t.out [] 0) ∧
  (∀ (s t : State) (rest : List HostEvent), s.port = .reset :: rest → step s = .next t → t.CountsFrom t.out [] 0) ∧
  (∀ (n : Nat) (s t : State) (base : Bytes) (ps : List Bytes) (taken : Nat), s.CountsFrom base ps taken →
    (∀ e ∈ s.port.take n, e.restarts = false) → runSteps n s = .next t →
    (∃ new, new.flatten = appendedOver n s ∧ t.CountsFrom base (ps ++ new) (taken + takenOver n s)) ∧
    ((∀ e ∈ s.port.take n, e.takesBytes = false) → (∀ g ∈ s.sinkGrants.take n, g.takesBytes = false) →
      takenOver n s = 0))

/-! ## The CRC engine -/

/-- The values that 95_test_vectors.md lists for the engine: T-CRC-1 to T-CRC-4, the wrong range T-CRC-4n, T-CRC-6, T-CRC-7
and the residue T-CRC-8. -/
def Obligations.CrcGivesTheSpecsValues : Prop :=
  let body : Bytes := [0x02#8, 0xB0#8, 0x12#8, 0x00#8, 0x01#8, 0xC1#8, 0x00#8, 0x00#8, 0xE0#8, 0x50#8, 0xF0#8, 0x00#8,
    0x1B#8, 0xE0#8, 0x50#8, 0xF0#8, 0x00#8]
  crc32 [] = 0xFFFFFFFF#32 ∧ crc32 [0x00#8] = 0x4E08BFB4#32 ∧
  crc32 [0x31#8, 0x32#8, 0x33#8, 0x34#8, 0x35#8, 0x36#8, 0x37#8, 0x38#8, 0x39#8] = 0x0376E6E7#32 ∧
  crc32 body = 0x434997BE#32 ∧ crc32 (0x00#8 :: body) = 0x4C35B8CB#32 ∧
  crc32 [0xFF#8] = 0xFFFFFF00#32 ∧ crc32 [0x00#8, 0x00#8, 0x00#8, 0x00#8] = 0xC704DD7B#32 ∧
  crc32 (body ++ [0x43#8, 0x49#8, 0x97#8, 0xBE#8]) = 0x00000000#32

/-- R114 (the spec's own inference, from R111): the CRC of a section's body followed by its CRC is 0, for every section the builder builds. -/
def Obligations.SectionWithItsCrcHasResidueZero : Prop :=
  ∀ (c : Codec) (m : Mode) (asc : Bytes), crc32 ((buildSection c m asc).drop 1) = 0#32

/-- R115 (the spec's own inference, from R111): the byte-at-a-time form gives the bitwise form's result on every input, with the table entries that the spec
lists. -/
def Obligations.CrcTableFormEqualsTheBitwiseForm : Prop :=
  (∀ data : Bytes, crc32ByTable data = crc32 data) ∧
  crcTable 0x00#8 = 0x00000000#32 ∧ crcTable 0x01#8 = 0x04C11DB7#32 ∧ crcTable 0x02#8 = 0x09823B6E#32 ∧
  crcTable 0x03#8 = 0x0D4326D9#32 ∧ crcTable 0xFF#8 = 0xB1F740B4#32

/-! ## The section builder -/

/-- R121: every field of the section at its place, for every codec, mode and configuration. -/
def Obligations.SectionHasTheFieldsOfTheLayout : Prop :=
  ∀ (c : Codec) (m : Mode) (asc : Bytes), asc.length ≤ 255 →
    let sec := buildSection c m asc
    let d := descriptorBytes c m asc.length
    sec.length = 22 + d ∧
    bitsAt sec 0 1 7 0 = 0 ∧ bitsAt sec 1 1 7 0 = 0x02 ∧
    bitsAt sec 2 1 7 7 = 1 ∧ bitsAt sec 2 1 6 6 = 0 ∧ bitsAt sec 2 1 5 4 = 3 ∧
    bitsAt sec 2 2 11 0 = 18 + d ∧ bitsAt sec 4 2 15 0 = 1 ∧
    bitsAt sec 6 1 7 6 = 3 ∧
    bitsAt sec 6 1 5 1 = (if m = .clearLeadSecond then 1 else 0) ∧
    bitsAt sec 6 1 0 0 = (if m = .clearLeadSecond then 0 else 1) ∧
    bitsAt sec 7 1 7 0 = 0 ∧ bitsAt sec 8 1 7 0 = 0 ∧
    bitsAt sec 9 1 7 5 = 7 ∧ bitsAt sec 9 2 12 0 = 0x0050 ∧
    bitsAt sec 11 1 7 4 = 15 ∧ bitsAt sec 11 2 11 0 = 0 ∧
    bitsAt sec 13 1 7 0 = streamTypeOf c m ∧
    bitsAt sec 14 1 7 5 = 7 ∧ bitsAt sec 14 2 12 0 = 0x0050 ∧
    bitsAt sec 16 1 7 4 = 15 ∧ bitsAt sec 16 2 11 0 = d ∧
    (sec.drop 18).take d = esDescriptors c m asc ∧
    bitsAt sec (18 + d) 4 31 0 = (crc32 ((sec.drop 1).take (17 + d))).toNat

/-- R134 (the spec's own inference, from R121 to R133): the builder's bytes as its pseudocode writes them, `12 + N` as its
low 8 bits where it is above 255 (notes/assumptions/13.md). -/
def Obligations.BuilderFollowsItsPseudocode : Prop :=
  ∀ (c : Codec) (m : Mode) (asc : Bytes), asc.length ≤ 255 →
    let enc : Bool := m = .clearLeadSecond ∨ m = .encrypted
    let ver := if m = .clearLeadSecond then 0x01#8 else 0x00#8
    let cni := if m = .clearLeadSecond then 0x00#8 else 0x01#8
    let st := (if c = .h264 then 0x1B#8 else 0x0F#8) ||| (if enc then 0xC0#8 else 0x00#8)
    let desc : Bytes :=
      if enc then
        [0x0F#8, 0x04#8] ++
        (if c = .h264 then [0x7A#8, 0x61#8, 0x76#8, 0x63#8] else [0x61#8, 0x61#8, 0x63#8, 0x64#8]) ++
        (if c = .aac then
          [0x05#8, u8 (12 + asc.length), 0x61#8, 0x70#8, 0x61#8, 0x64#8, 0x7A#8, 0x61#8, 0x61#8, 0x63#8,
            0x00#8, 0x00#8, 0x01#8, u8 asc.length] ++ asc
         else [])
      else []
    let len := 18 + desc.length
    let body : Bytes :=
      [0x02#8, 0xB0#8 ||| u8 (len / 256), u8 (len % 256), 0x00#8, 0x01#8,
        0xC0#8 ||| ver <<< 1 ||| cni, 0x00#8, 0x00#8, 0xE0#8, 0x50#8, 0xF0#8, 0x00#8,
        st, 0xE0#8, 0x50#8, 0xF0#8 ||| u8 (desc.length / 256), u8 (desc.length % 256)] ++ desc
    buildSection c m asc = withCrc body

/-- R125, R126, R128: the ES descriptors, byte for byte. The registration descriptor's length byte is `12 + N` where that
fits in a byte; for N of 244 to 255 the spec leaves it open, and so does this statement. -/
def Obligations.DescriptorsCarryTheMarkersAndTheConfiguration : Prop :=
  ∀ (m : Mode) (asc : Bytes), asc.length ≤ 255 →
    (m = .clear ∨ m = .clearLeadFirst → ∀ c, esDescriptors c m asc = []) ∧
    (m = .clearLeadSecond ∨ m = .encrypted →
      esDescriptors .h264 m asc = [0x0F#8, 0x04#8, 0x7A#8, 0x61#8, 0x76#8, 0x63#8] ∧
      ∃ len setupLen : Byte, (asc.length ≤ 243 → len.toNat = 12 + asc.length) ∧ setupLen.toNat = asc.length ∧
        esDescriptors .aac m asc =
          [0x0F#8, 0x04#8, 0x61#8, 0x61#8, 0x63#8, 0x64#8,
            0x05#8, len, 0x61#8, 0x70#8, 0x61#8, 0x64#8, 0x7A#8, 0x61#8, 0x61#8, 0x63#8,
            0x00#8, 0x00#8, 0x01#8, setupLen] ++ asc)

/-- The model's choice, notes/assumptions/13.md: for an AAC configuration of 244 to 255 bytes, `12 + N` does not fit in the
registration descriptor's length byte, which keeps the low 8 bits. The section is built, and the framer's guard refuses
it. -/
def Obligations.LongConfigurationKeepsTheLowByteOfItsLength : Prop :=
  ∀ (m : Mode) (asc : Bytes), 244 ≤ asc.length → asc.length ≤ 255 → m = .clearLeadSecond ∨ m = .encrypted →
    (∃ b, (esDescriptors .aac m asc)[7]? = some b ∧ b.toNat = 12 + asc.length - 256) ∧
    tooLarge (buildSection .aac m asc) = true

/-- R122: byte 6 of the section, 0xC0 with the version number and current_next_indicator, depends on the mode alone. -/
def Obligations.VersionByteDependsOnTheModeAlone : Prop :=
  ∀ (c : Codec) (m : Mode) (asc : Bytes),
    bitsAt (buildSection c m asc) 6 1 5 1 = (if m = .clearLeadSecond then 1 else 0) ∧
    bitsAt (buildSection c m asc) 6 1 0 0 = (if m = .clearLeadSecond then 0 else 1) ∧
    (buildSection c m asc)[6]? = some (if m = .clearLeadSecond then 0xC2#8 else 0xC1#8)

/-- R141 and R143's corner case: ClearLeadFirst is Clear byte for byte, and Encrypted differs from ClearLeadSecond only
in byte 6 and in the four bytes of the CRC. -/
def Obligations.ModePairsDifferAtMostInVersionByteAndCrc : Prop :=
  ∀ (c : Codec) (asc : Bytes),
    buildSection c .clearLeadFirst asc = buildSection c .clear asc ∧
    (buildSection c .encrypted asc).length = (buildSection c .clearLeadSecond asc).length ∧
    (buildSection c .encrypted asc)[6]? = some 0xC1#8 ∧ (buildSection c .clearLeadSecond asc)[6]? = some 0xC2#8 ∧
    ∀ k, k ≠ 6 → k + 4 < (buildSection c .encrypted asc).length →
      (buildSection c .encrypted asc)[k]? = (buildSection c .clearLeadSecond asc)[k]?

/-- R124 (the spec's own inference, from R123): the encrypted stream_type is the plain one with bits 7 and 6 set, for both codecs, in the section's byte
13. -/
def Obligations.EncryptedStreamTypeSetsTheTopTwoBits : Prop :=
  ∀ (c : Codec) (asc : Bytes) (m : Mode), m = .clearLeadSecond ∨ m = .encrypted →
    ∃ p e, (buildSection c .clear asc)[13]? = some p ∧ (buildSection c m asc)[13]? = some e ∧
      e = p ||| 0xC0#8 ∧ e.toNat % 16 = p.toNat % 16 ∧
      p.toNat / 16 = (if c = .h264 then 1 else 0) ∧ e.toNat / 16 = (if c = .h264 then 0xD else 0xC)

/-- R136 (the spec's own inference, from R129 and R131): the size of every section and the stuffing it leaves, and which sections fit. -/
def Obligations.SectionSizesFollowTheTable : Prop :=
  ∀ (c : Codec) (m : Mode) (asc : Bytes), asc.length ≤ 255 →
    let n := (buildSection c m asc).length
    (esDescriptors c m asc).length = descriptorBytes c m asc.length ∧
    bitsAt (buildSection c m asc) 2 2 11 0 = 18 + descriptorBytes c m asc.length ∧
    n = 22 + descriptorBytes c m asc.length ∧
    stuffingCount n = 160 - descriptorBytes c m asc.length ∧
    (tooLarge (buildSection c m asc) = true ↔
      c = .aac ∧ (m = .clearLeadSecond ∨ m = .encrypted) ∧ 140 < asc.length)

/-! ## The framer -/

/-- R150, R152, R153: every field of the packet at its place, for every section that fits and every counter value. -/
def Obligations.PacketHasTheFieldsOfTheLayout : Prop :=
  ∀ (sec : Bytes) (cc : BitVec 4), sec.length ≤ 182 →
    let p := framePacket sec cc
    p.length = 188 ∧
    bitsAt p 0 1 7 0 = 0x47 ∧
    bitsAt p 1 1 7 7 = 0 ∧ bitsAt p 1 1 6 6 = 1 ∧ bitsAt p 1 1 5 5 = 0 ∧
    bitsAt p 1 2 12 0 = 0x0020 ∧
    bitsAt p 3 1 7 6 = 0 ∧ bitsAt p 3 1 5 4 = 3 ∧ bitsAt p 3 1 3 0 = cc.toNat ∧
    bitsAt p 4 1 7 0 = 183 - sec.length ∧ bitsAt p 5 1 7 0 = 0 ∧
    (∀ k, 6 ≤ k → k < 188 - sec.length → p[k]? = some 0xFF#8) ∧
    p.drop (188 - sec.length) = sec

/-- R156: `EmitPackets` on one or two sections. Without room in the sink the command is held instead (R58). -/
def Obligations.EmitPacketsCommitsTheWholeListOrFaults : Prop :=
  ∀ (s : State) (secs : List Bytes), s.fault = false → secs.length = 1 ∨ secs.length = 2 →
    ((∃ sec ∈ secs, 182 < sec.length) → s.Faulted (s.emitPackets secs) .sectionTooLarge) ∧
    ((∀ sec ∈ secs, sec.length ≤ 182) → Ready { s with cfgValid := true } (188 * secs.length) →
      Emitted s (s.emitPackets secs)
        ((List.range secs.length).flatMap (fun k => packetOf (s.cc.toNat + k) (secs.getD k []))) secs.length)

/-! ## Invariants -/

/-- The reset state meets the invariant. -/
def Obligations.ResetStateMeetsTheInvariant : Prop := State.reset.Inv

/-- Every step keeps the invariant, from every state that meets it and for every interaction of the host. -/
def Obligations.EveryStepKeepsTheInvariant : Prop :=
  ∀ s t : State, s.Inv → step s = .next t → t.Inv

/-- R59 and R157 (the spec's own inference, from R150 and R156): whatever the interaction, the bytes a step appends to OUT
are none, one packet or two; only the host's own `clear` and its drains (R41) take bytes away. That a drain takes the first
bytes, and that one can come as a grant while a command is held, are the model's choice (notes/assumptions/5.md), and so
is that the host appends nothing of its own (notes/assumptions/14.md). -/
def Obligations.OutGrowsByWholePackets : Prop :=
  ∀ s t : State, step s = .next t →
    (∃ rest, s.port = .clearOut :: rest ∧ t.out = []) ∨
    (∃ n rest, s.port = .drainOut n :: rest ∧ t.out = s.out.drop n) ∨
    (∃ n rest, s.sinkGrants = .drain n :: rest ∧ t.port = s.port ∧ t.sinkGrants = rest ∧ t.out = s.out.drop n) ∨
    ∃ v, t.out = s.out ++ v ∧ (v.length = 0 ∨ v.length = 188 ∨ v.length = 376)

/-! ## Several instances -/

/-- R221: a step of one instance leaves every other instance's state as it was, and moves its own by its own step. -/
def Obligations.InstancesShareNothing : Prop :=
  ∀ (sys sys' : System) (k : Nat), sys.stepInstance k = some sys' →
    (∀ j, j ≠ k → sys'.instances[j]? = sys.instances[j]?) ∧
    ∃ s t, sys.instances[k]? = some s ∧ step s = .next t ∧ sys'.instances[k]? = some t
end

