-- ==== Sys2Proof/Laws/Crc.lean ====
section
/-! SUPPORT. The CRC engine's algebra: its bit step is linear over XOR, and while the top bits are clear it only
shifts. -/

namespace Sys2Proof.Machine

theorem crcBit_xor (a b : BitVec 32) : crcBit (a ^^^ b) = crcBit a ^^^ crcBit b := by
  unfold crcBit
  rw [BitVec.msb_xor, BitVec.shiftLeft_xor_distrib]
  cases ha : a.msb <;> cases hb : b.msb
  · simp
  · simp [BitVec.xor_assoc]
  · simp only [Bool.xor_false, if_true, Bool.false_eq_true, if_false]
    rw [BitVec.xor_assoc, BitVec.xor_comm (b <<< 1), ← BitVec.xor_assoc]
  · simp only [Bool.xor_self, Bool.false_eq_true, if_false, if_true]
    rw [BitVec.xor_assoc (a <<< 1), BitVec.xor_comm crcPoly, BitVec.xor_assoc (b <<< 1), BitVec.xor_self,
      BitVec.xor_zero]

theorem crcBits_xor (n : Nat) (a b : BitVec 32) : crcBits n (a ^^^ b) = crcBits n a ^^^ crcBits n b := by
  induction n generalizing a b with
  | zero => rfl
  | succ n ih => rw [crcBits, crcBit_xor, ih]; rfl

/-- A register whose top `n` bits are clear is shifted by `n` bit steps and nothing is subtracted. -/
theorem crcBits_of_small (n : Nat) (c : BitVec 32) (h : c.toNat * 2 ^ n < 2 ^ 32) : crcBits n c = c <<< n := by
  induction n generalizing c with
  | zero => simp [crcBits]
  | succ n ih =>
    rw [Nat.pow_succ, Nat.mul_comm (2 ^ n), ← Nat.mul_assoc] at h
    have hpos : 0 < 2 ^ n := Nat.two_pow_pos n
    have hlt : c.toNat * 2 < 2 ^ 32 := Nat.lt_of_le_of_lt (Nat.le_mul_of_pos_right _ hpos) h
    have hmsb : c.msb = false := by rw [BitVec.msb_eq_decide]; simp; omega
    have hshift : (c <<< 1).toNat = c.toNat * 2 := by
      rw [BitVec.toNat_shiftLeft, Nat.shiftLeft_eq, Nat.pow_one, Nat.mod_eq_of_lt hlt]
    have hbit : crcBit c = c <<< 1 := by simp [crcBit, hmsb]
    rw [crcBits, hbit, ih _ (by rw [hshift]; exact h), ← BitVec.shiftLeft_add, Nat.add_comm]

theorem crcFrom_append (c : BitVec 32) (a b : Bytes) : crcFrom c (a ++ b) = crcFrom (crcFrom c a) b := by
  induction a generalizing c with
  | nil => rfl
  | cons x rest ih => exact ih _

end Sys2Proof.Machine
end

