-- ==== Sys2Proof/Laws/Decode.lean ====
section
/-! SUPPORT. The fields of a command word as numbers, and the decoder's results case by case. -/

namespace Sys2Proof

@[simp] theorem toNat_opField (w : CmdWord) : (opField w).toNat = w.toNat % 16 := by
  simp [opField, BitVec.extractLsb'_toNat]

@[simp] theorem toNat_codecField (w : CmdWord) : (codecField w).toNat = w.toNat / 16 % 4 := by
  simp [codecField, BitVec.extractLsb'_toNat, Nat.shiftRight_eq_div_pow]

@[simp] theorem toNat_rsvField (w : CmdWord) : (rsvField w).toNat = w.toNat / 64 % 4 := by
  simp [rsvField, BitVec.extractLsb'_toNat, Nat.shiftRight_eq_div_pow]

@[simp] theorem toNat_ascLenField (w : CmdWord) : (ascLenField w).toNat = w.toNat / 256 := by
  have := w.isLt
  simp only [ascLenField, BitVec.extractLsb'_toNat, Nat.shiftRight_eq_div_pow]
  omega

@[simp] theorem toNat_highField (w : CmdWord) : (highField w).toNat = w.toNat / 16 := by
  have := w.isLt
  simp only [highField, BitVec.extractLsb'_toNat, Nat.shiftRight_eq_div_pow]
  omega

theorem opField_eq_iff (w : CmdWord) (k : BitVec 4) : opField w = k ↔ w.toNat % 16 = k.toNat := by
  rw [← BitVec.toNat_inj, toNat_opField]

theorem highField_eq_zero_iff (w : CmdWord) : highField w = 0#12 ↔ w.toNat / 16 = 0 := by
  rw [← BitVec.toNat_inj, toNat_highField]; rfl

theorem rsvField_eq_zero_iff (w : CmdWord) : rsvField w = 0#2 ↔ w.toNat / 64 % 4 = 0 := by
  rw [← BitVec.toNat_inj, toNat_rsvField]; rfl

theorem codecField_eq_iff (w : CmdWord) (k : BitVec 2) : codecField w = k ↔ w.toNat / 16 % 4 = k.toNat := by
  rw [← BitVec.toNat_inj, toNat_codecField]

theorem ascLenField_eq_iff (w : CmdWord) (k : BitVec 8) : ascLenField w = k ↔ w.toNat / 256 = k.toNat := by
  rw [← BitVec.toNat_inj, toNat_ascLenField]

theorem codecOf_eq_some {f : BitVec 2} {c : Codec} : codecOf f = some c ↔ f = c.code := by
  revert f; cases c <;> decide

theorem codecOf_eq_none {f : BitVec 2} : codecOf f = none ↔ 2 ≤ f.toNat := by
  revert f; decide

/-! ## What each result of `decodeWord` says of the word -/

theorem word_eq_iff (w k : CmdWord) : w = k ↔ w.toNat = k.toNat := BitVec.toNat_inj.symm

theorem decodeWord_writeClear {w : CmdWord} : decodeWord w = .writeClear ↔ w = 0x0001#16 := by
  simp only [decodeWord, writeWord, initWord, opField_eq_iff, highField_eq_zero_iff, word_eq_iff, BitVec.toNat_ofNat]
  have := w.isLt
  constructor
  · intro h
    split at h
    · split at h
      · omega
      · cases h
    all_goals (repeat' split at h) <;> cases h
  · intro h
    simp [h]

theorem decodeWord_writeClearLead {w : CmdWord} : decodeWord w = .writeClearLead ↔ w = 0x0002#16 := by
  simp only [decodeWord, writeWord, initWord, opField_eq_iff, highField_eq_zero_iff, word_eq_iff, BitVec.toNat_ofNat]
  have := w.isLt
  constructor
  · intro h
    (repeat' split at h) <;> first | omega | cases h
  · intro h
    simp [h]

theorem decodeWord_writeEncrypted {w : CmdWord} : decodeWord w = .writeEncrypted ↔ w = 0x0003#16 := by
  simp only [decodeWord, writeWord, initWord, opField_eq_iff, highField_eq_zero_iff, word_eq_iff, BitVec.toNat_ofNat]
  have := w.isLt
  constructor
  · intro h
    (repeat' split at h) <;> first | omega | cases h
  · intro h
    simp [h]

/-- INIT's command word as a number (R171). -/
theorem toNat_initEncoding (c : Codec) (n : BitVec 8) :
    (initEncoding c n).toNat = n.toNat * 256 + c.code.toNat * 16 + 4 := by
  simp only [initEncoding, toNat_packed, BitVec.toNat_ofNat]
  omega

theorem decodeWord_init {w : CmdWord} {c : Codec} {n : BitVec 8} :
    decodeWord w = .init c n ↔ w = initEncoding c n := by
  constructor
  · intro h
    unfold decodeWord writeWord initWord at h
    split at h
    · split at h <;> cases h
    split at h
    · split at h <;> cases h
    split at h
    · split at h <;> cases h
    split at h
    · next hop =>
      split at h
      · next hr =>
        split at h
        · next hc =>
          injection h with h1 h2
          subst h1 h2
          rw [codecOf_eq_some] at hc
          rw [initEncoding, ← hc, ← hop, ← hr]
          simp only [opField, rsvField, codecField, ascLenField]
          rw [BitVec.extractLsb'_append_extractLsb'_eq_extractLsb' (by omega),
            BitVec.extractLsb'_append_extractLsb'_eq_extractLsb' (by omega),
            BitVec.extractLsb'_append_extractLsb'_eq_extractLsb' (by omega)]
          simp
        · cases h
      · cases h
    · cases h
  · rintro rfl
    have key := toNat_initEncoding c n
    have hn := n.isLt
    have hc : c.code.toNat < 2 := by cases c <;> decide
    have hop : opField (initEncoding c n) = 4#4 := by rw [opField_eq_iff, key]; simp; omega
    have hr : rsvField (initEncoding c n) = 0#2 := by rw [rsvField_eq_zero_iff, key]; omega
    have hcf : codecField (initEncoding c n) = c.code := by rw [codecField_eq_iff, key]; omega
    have hnf : ascLenField (initEncoding c n) = n := by rw [ascLenField_eq_iff, key]; omega
    have hsome : codecOf c.code = some c := codecOf_eq_some.mpr rfl
    simp [decodeWord, initWord, hop, hr, hcf, hnf, hsome]

end Sys2Proof
end

