-- ==== Sys2Proof/Laws/Memory.lean ====
section
/-! SUPPORT. The laws of ASC_BUF's memory: a read after a write gives the byte written, other indices are left alone,
and every write keeps the canonical form. -/

namespace Sys2Proof.Machine.Memory

theorem read_erase_same (m : Memory) (a : Nat) : (m.erase a).read a = unlisted := by
  induction m with
  | nil => rfl
  | cons c rest ih =>
    by_cases h : c.1 = a
    · simpa [erase, h] using ih
    · simpa [erase, h, read] using ih

theorem read_erase_other (m : Memory) {a b : Nat} (hab : b ≠ a) : (m.erase a).read b = m.read b := by
  induction m with
  | nil => rfl
  | cons c rest ih =>
    by_cases h : c.1 = a
    · have hb : c.1 ≠ b := fun e => hab (e.symm.trans h)
      rw [read, if_neg hb, ← ih]
      simp [erase, h]
    · simp only [erase, bne_iff_ne, ne_eq, h, not_false_eq_true, List.filter_cons_of_pos, read] at ih ⊢
      rw [ih]

theorem read_insert_other (m : Memory) {a b : Nat} (v : Byte) (hab : b ≠ a) : (m.insert a v).read b = m.read b := by
  induction m with
  | nil => simp [insert, read, Ne.symm hab]
  | cons c rest ih =>
    unfold insert
    split
    · simp [read, Ne.symm hab]
    · simp only [read]; rw [ih]

theorem read_insert_same (m : Memory) (a : Nat) (v : Byte) (h : ∀ c ∈ m, c.1 ≠ a) : (m.insert a v).read a = v := by
  induction m with
  | nil => simp [insert, read]
  | cons c rest ih =>
    unfold insert
    split
    · simp [read]
    · rw [read, if_neg (h c (by simp)), ih (fun d hd => h d (by simp [hd]))]

theorem mem_erase {m : Memory} {a : Nat} {c : Host.Cell} : c ∈ m.erase a ↔ c ∈ m ∧ c.1 ≠ a := by
  simp [erase]

@[simp] theorem read_write_same (m : Memory) (a : Nat) (v : Byte) : (m.write a v).read a = v := by
  unfold write
  split
  · next h => rw [read_erase_same, h]
  · exact read_insert_same _ _ _ (fun c hc => (mem_erase.mp hc).2)

theorem read_write_other (m : Memory) {a b : Nat} (v : Byte) (hab : b ≠ a) : (m.write a v).read b = m.read b := by
  unfold write
  split
  · exact read_erase_other m hab
  · rw [read_insert_other _ _ hab, read_erase_other m hab]

/-- What a block of written bytes does to every index. -/
theorem read_writeBytes (m : Memory) (a : Nat) (bs : Bytes) (k : Nat) :
    (m.writeBytes a bs).read k = if a ≤ k then (bs[k - a]?).getD (m.read k) else m.read k := by
  induction bs generalizing m a with
  | nil => simp [writeBytes]
  | cons b rest ih =>
    rw [writeBytes, ih]
    rcases Nat.lt_trichotomy k a with h | rfl | h
    · rw [if_neg (by omega), if_neg (by omega), read_write_other _ _ (by omega)]
    · simp
    · rw [if_pos (by omega), if_pos (by omega), read_write_other _ _ (by omega)]
      have : k - a = (k - (a + 1)) + 1 := by omega
      rw [this, List.getElem?_cons_succ]

theorem readBytes_eq_map (m : Memory) (a n : Nat) : m.readBytes a n = (List.range n).map (fun i => m.read (a + i)) := by
  induction n generalizing a with
  | zero => rfl
  | succ n ih =>
    rw [readBytes, ih, List.range_succ_eq_map]
    simp only [List.map_cons, List.map_map, Nat.add_zero, List.cons.injEq, true_and]
    apply List.map_congr_left
    intro i _
    simp only [Function.comp]
    congr 1
    omega

@[simp] theorem length_readBytes (m : Memory) (a n : Nat) : (m.readBytes a n).length = n := by
  simp [readBytes_eq_map]

/-! ## The canonical form -/

theorem wf_nil : wf [] := ⟨List.Pairwise.nil, by simp⟩

theorem wf_erase {m : Memory} (h : m.wf) (a : Nat) : (m.erase a).wf :=
  ⟨h.1.filter _, fun c hc => h.2 c (mem_erase.mp hc).1⟩

theorem mem_insert {m : Memory} {a : Nat} {v : Byte} {c : Host.Cell} :
    c ∈ m.insert a v ↔ c = (a, v) ∨ c ∈ m := by
  induction m with
  | nil => simp [insert]
  | cons d rest ih =>
    unfold insert
    split
    · simp
    · simp only [List.mem_cons, ih]; tauto

theorem rising_insert {m : Memory} {a : Nat} {v : Byte} (h : m.Pairwise (fun c d => c.1 < d.1))
    (ha : ∀ c ∈ m, c.1 ≠ a) : (m.insert a v).Pairwise (fun c d => c.1 < d.1) := by
  induction m with
  | nil => simp [insert]
  | cons c rest ih =>
    obtain ⟨hc, hrest⟩ := List.pairwise_cons.mp h
    unfold insert
    split
    · next hlt =>
      refine List.pairwise_cons.mpr ⟨fun d hd => ?_, h⟩
      rcases List.mem_cons.mp hd with rfl | hd
      · exact hlt
      · exact hlt.trans (hc d hd)
    · next hge =>
      have hne : c.1 ≠ a := ha c (by simp)
      refine List.pairwise_cons.mpr ⟨fun d hd => ?_, ih hrest (fun d hd => ha d (by simp [hd]))⟩
      rcases mem_insert.mp hd with rfl | hd
      · show c.1 < a
        omega
      · exact hc d hd

theorem wf_write {m : Memory} (h : m.wf) {a : Nat} (ha : a < ascLenMax) (v : Byte) : (m.write a v).wf := by
  unfold write
  split
  · exact wf_erase h a
  · next hv =>
    refine ⟨rising_insert (wf_erase h a).1 (fun c hc => (mem_erase.mp hc).2), fun c hc => ?_⟩
    rcases mem_insert.mp hc with rfl | hc
    · exact ⟨ha, hv⟩
    · exact (wf_erase h a).2 c hc

theorem wf_writeBytes {m : Memory} (h : m.wf) {a : Nat} {bs : Bytes} (hb : a + bs.length ≤ ascLenMax) :
    (m.writeBytes a bs).wf := by
  induction bs generalizing m a with
  | nil => exact h
  | cons b rest ih =>
    simp only [List.length_cons] at hb
    exact ih (wf_write h (by omega) b) (by omega)

/-- What a RESET leaves is in canonical form, whatever its bytes. -/
theorem wf_afterReset (k : Nat) : (afterReset k).wf := by
  unfold afterReset
  exact wf_writeBytes wf_nil (by rw [List.length_map, List.length_range]; omega)

/-- Each of the 255 bytes that a RESET leaves is free. -/
theorem read_afterReset (k : Nat) {i : Nat} (h : i < ascLenMax) :
    (afterReset k).read i = Config.ascBufAfterReset k i := by
  unfold afterReset
  rw [read_writeBytes, if_pos (by omega), List.getElem?_map, Nat.sub_zero, List.getElem?_range h]
  simp only [Option.map_some, Option.getD_some]

end Sys2Proof.Machine.Memory
end

