-- ==== Sys2Proof/Laws/Section.lean ====
section
/-! SUPPORT. The lengths of the builder's parts (42_section_builder.md R129, R136). -/

namespace Sys2Proof.Machine

@[simp] theorem length_descriptor (tag : Byte) (p : Bytes) : (descriptor tag p).length = 2 + p.length := by
  simp [descriptor]; omega

@[simp] theorem length_codecMarker (c : Codec) : (codecMarker c).length = 4 := by cases c <;> rfl

@[simp] theorem length_privateDataIndicator (c : Codec) : (privateDataIndicator c).length = 6 := by
  simp [privateDataIndicator]

@[simp] theorem length_setupData (asc : Bytes) : (setupData asc).length = 12 + asc.length := by
  simp [setupData, markerApad, markerZaac]; omega

@[simp] theorem length_registration (asc : Bytes) : (registration asc).length = 14 + asc.length := by
  simp [registration]; omega

theorem length_esDescriptors (c : Codec) (m : Mode) (asc : Bytes) :
    (esDescriptors c m asc).length =
      if m.isEncrypted then (if c = .aac then 20 + asc.length else 6) else 0 := by
  cases c <;> cases m <;> simp [esDescriptors, Mode.isEncrypted] <;> omega

@[simp] theorem length_lengthField (top : BitVec 4) (n : Nat) : (lengthField top n).length = 2 := rfl

@[simp] theorem length_pidField (top : BitVec 3) (pid : Pid) : (pidField top pid).length = 2 := rfl

@[simp] theorem length_sectionBodyWith (c : Codec) (m : Mode) (d : Bytes) :
    (sectionBodyWith c m d).length = 17 + d.length := by
  simp [sectionBodyWith]; omega

theorem length_buildSection (c : Codec) (m : Mode) (asc : Bytes) :
    (buildSection c m asc).length = 22 + (esDescriptors c m asc).length := by
  simp [buildSection, sectionBody]; omega

/-- The size guard fires exactly for an encrypted AAC section of more than 140 bytes of configuration (R154). -/
theorem tooLarge_buildSection (c : Codec) (m : Mode) (asc : Bytes) :
    tooLarge (buildSection c m asc) = true ↔ c = .aac ∧ m.isEncrypted = true ∧ 140 < asc.length := by
  simp only [tooLarge, length_buildSection, length_esDescriptors, maxSectionBytes, tsPacketSize, framerFixedBytes,
    decide_eq_true_eq]
  cases c <;> cases hm : m.isEncrypted <;> simp
  omega

end Sys2Proof.Machine
end

