-- ==== Sys2Proof/Laws/State.lean ====
section
/-! SUPPORT. What each update of the state does to each field, so that no proof unfolds a record update. -/

namespace Sys2Proof.Machine

/-! ## `append` -/

@[simp] theorem State.append_cc (s : State) (v : Bytes) : (s.append v).cc = s.cc := rfl
@[simp] theorem State.append_cfgValid (s : State) (v : Bytes) : (s.append v).cfgValid = s.cfgValid := rfl
@[simp] theorem State.append_codec (s : State) (v : Bytes) : (s.append v).codec = s.codec := rfl
@[simp] theorem State.append_ascLen (s : State) (v : Bytes) : (s.append v).ascLen = s.ascLen := rfl
@[simp] theorem State.append_ascBuf (s : State) (v : Bytes) : (s.append v).ascBuf = s.ascBuf := rfl
@[simp] theorem State.append_fault (s : State) (v : Bytes) : (s.append v).fault = s.fault := rfl
@[simp] theorem State.append_cause (s : State) (v : Bytes) : (s.append v).cause = s.cause := rfl
@[simp] theorem State.append_out (s : State) (v : Bytes) : (s.append v).out = s.out ++ v := rfl
@[simp] theorem State.append_outCapacity (s : State) (v : Bytes) : (s.append v).outCapacity = s.outCapacity := rfl
@[simp] theorem State.append_sinkGrants (s : State) (v : Bytes) : (s.append v).sinkGrants = s.sinkGrants := rfl
@[simp] theorem State.append_port (s : State) (v : Bytes) : (s.append v).port = s.port := rfl
@[simp] theorem State.append_reply (s : State) (v : Bytes) : (s.append v).reply = s.reply := rfl
@[simp] theorem State.append_choices (s : State) (v : Bytes) : (s.append v).choices = s.choices := rfl

/-! ## `complete` -/

@[simp] theorem State.complete_cc (s : State) : (s.complete).cc = s.cc := rfl
@[simp] theorem State.complete_cfgValid (s : State) : (s.complete).cfgValid = s.cfgValid := rfl
@[simp] theorem State.complete_codec (s : State) : (s.complete).codec = s.codec := rfl
@[simp] theorem State.complete_ascLen (s : State) : (s.complete).ascLen = s.ascLen := rfl
@[simp] theorem State.complete_ascBuf (s : State) : (s.complete).ascBuf = s.ascBuf := rfl
@[simp] theorem State.complete_fault (s : State) : (s.complete).fault = s.fault := rfl
@[simp] theorem State.complete_cause (s : State) : (s.complete).cause = s.cause := rfl
@[simp] theorem State.complete_out (s : State) : (s.complete).out = s.out := rfl
@[simp] theorem State.complete_outCapacity (s : State) : (s.complete).outCapacity = s.outCapacity := rfl
@[simp] theorem State.complete_sinkGrants (s : State) : (s.complete).sinkGrants = s.sinkGrants := rfl
@[simp] theorem State.complete_port (s : State) : (s.complete).port = s.port.tail := rfl
@[simp] theorem State.complete_reply (s : State) : (s.complete).reply = s.reply := rfl
@[simp] theorem State.complete_choices (s : State) : (s.complete).choices = s.choices := rfl

/-! ## `clearFault` -/

@[simp] theorem State.clearFault_cc (s : State) : (s.clearFault).cc = s.cc := rfl
@[simp] theorem State.clearFault_cfgValid (s : State) : (s.clearFault).cfgValid = s.cfgValid := rfl
@[simp] theorem State.clearFault_codec (s : State) : (s.clearFault).codec = s.codec := rfl
@[simp] theorem State.clearFault_ascLen (s : State) : (s.clearFault).ascLen = s.ascLen := rfl
@[simp] theorem State.clearFault_ascBuf (s : State) : (s.clearFault).ascBuf = s.ascBuf := rfl
@[simp] theorem State.clearFault_fault (s : State) : (s.clearFault).fault = false := rfl
@[simp] theorem State.clearFault_cause (s : State) : (s.clearFault).cause = .none := rfl
@[simp] theorem State.clearFault_out (s : State) : (s.clearFault).out = s.out := rfl
@[simp] theorem State.clearFault_outCapacity (s : State) : (s.clearFault).outCapacity = s.outCapacity := rfl
@[simp] theorem State.clearFault_sinkGrants (s : State) : (s.clearFault).sinkGrants = s.sinkGrants := rfl
@[simp] theorem State.clearFault_port (s : State) : (s.clearFault).port = s.port := rfl
@[simp] theorem State.clearFault_reply (s : State) : (s.clearFault).reply = s.reply := rfl
@[simp] theorem State.clearFault_choices (s : State) : (s.clearFault).choices = s.choices := rfl

/-! ## `advance` -/

@[simp] theorem State.advance_cc (s : State) : (s.advance).cc = nextCc s.cc := rfl
@[simp] theorem State.advance_cfgValid (s : State) : (s.advance).cfgValid = s.cfgValid := rfl
@[simp] theorem State.advance_codec (s : State) : (s.advance).codec = s.codec := rfl
@[simp] theorem State.advance_ascLen (s : State) : (s.advance).ascLen = s.ascLen := rfl
@[simp] theorem State.advance_ascBuf (s : State) : (s.advance).ascBuf = s.ascBuf := rfl
@[simp] theorem State.advance_fault (s : State) : (s.advance).fault = s.fault := rfl
@[simp] theorem State.advance_cause (s : State) : (s.advance).cause = s.cause := rfl
@[simp] theorem State.advance_out (s : State) : (s.advance).out = s.out := rfl
@[simp] theorem State.advance_outCapacity (s : State) : (s.advance).outCapacity = s.outCapacity := rfl
@[simp] theorem State.advance_sinkGrants (s : State) : (s.advance).sinkGrants = s.sinkGrants := rfl
@[simp] theorem State.advance_port (s : State) : (s.advance).port = s.port := rfl
@[simp] theorem State.advance_reply (s : State) : (s.advance).reply = s.reply := rfl
@[simp] theorem State.advance_choices (s : State) : (s.advance).choices = s.choices := rfl

/-! ## `applyReset` -/

@[simp] theorem State.applyReset_cc (s : State) : (s.applyReset).cc = 0#4 := rfl
@[simp] theorem State.applyReset_cfgValid (s : State) : (s.applyReset).cfgValid = false := rfl
@[simp] theorem State.applyReset_codec (s : State) : (s.applyReset).codec = .h264 := rfl
@[simp] theorem State.applyReset_ascLen (s : State) : (s.applyReset).ascLen = 0#8 := rfl
@[simp] theorem State.applyReset_ascBuf (s : State) : (s.applyReset).ascBuf = Memory.afterReset s.choices := rfl
@[simp] theorem State.applyReset_fault (s : State) : (s.applyReset).fault = false := rfl
@[simp] theorem State.applyReset_cause (s : State) : (s.applyReset).cause = .none := rfl
@[simp] theorem State.applyReset_out (s : State) : (s.applyReset).out = s.out := rfl
@[simp] theorem State.applyReset_outCapacity (s : State) : (s.applyReset).outCapacity = s.outCapacity := rfl
@[simp] theorem State.applyReset_sinkGrants (s : State) : (s.applyReset).sinkGrants = s.sinkGrants := rfl
@[simp] theorem State.applyReset_port (s : State) : (s.applyReset).port = s.port := rfl
@[simp] theorem State.applyReset_reply (s : State) : (s.applyReset).reply = s.reply := rfl
@[simp] theorem State.applyReset_choices (s : State) : (s.applyReset).choices = s.choices + 1 := rfl

/-! ## `present` -/

@[simp] theorem State.present_cc (s : State) (w : CmdWord) (data : Bytes) : (s.present w data).cc = s.cc := rfl
@[simp] theorem State.present_cfgValid (s : State) (w : CmdWord) (data : Bytes) : (s.present w data).cfgValid = s.cfgValid := rfl
@[simp] theorem State.present_codec (s : State) (w : CmdWord) (data : Bytes) : (s.present w data).codec = s.codec := rfl
@[simp] theorem State.present_ascLen (s : State) (w : CmdWord) (data : Bytes) : (s.present w data).ascLen = s.ascLen := rfl
@[simp] theorem State.present_ascBuf (s : State) (w : CmdWord) (data : Bytes) : (s.present w data).ascBuf = s.ascBuf := rfl
@[simp] theorem State.present_fault (s : State) (w : CmdWord) (data : Bytes) : (s.present w data).fault = s.fault := rfl
@[simp] theorem State.present_cause (s : State) (w : CmdWord) (data : Bytes) : (s.present w data).cause = s.cause := rfl
@[simp] theorem State.present_out (s : State) (w : CmdWord) (data : Bytes) : (s.present w data).out = s.out := rfl
@[simp] theorem State.present_outCapacity (s : State) (w : CmdWord) (data : Bytes) : (s.present w data).outCapacity = s.outCapacity := rfl
@[simp] theorem State.present_sinkGrants (s : State) (w : CmdWord) (data : Bytes) : (s.present w data).sinkGrants = s.sinkGrants := rfl
@[simp] theorem State.present_port (s : State) (w : CmdWord) (data : Bytes) : (s.present w data).port = .command w data :: s.port := rfl
@[simp] theorem State.present_reply (s : State) (w : CmdWord) (data : Bytes) : (s.present w data).reply = s.reply := rfl
@[simp] theorem State.present_choices (s : State) (w : CmdWord) (data : Bytes) : (s.present w data).choices = s.choices := rfl

/-! ## `raiseFault` -/

theorem State.raiseFault_of_fault (s : State) (code : Cause) (h : s.fault = true) : s.raiseFault code = s := by
  simp [State.raiseFault, h]

theorem State.raiseFault_of_clear (s : State) (code : Cause) (h : s.fault = false) :
    s.raiseFault code = { s with fault := true, cause := code } := by
  simp [State.raiseFault, h]

@[simp] theorem State.raiseFault_fault (s : State) (code : Cause) : (s.raiseFault code).fault = true := by
  unfold State.raiseFault; split <;> simp_all

@[simp] theorem State.raiseFault_cc (s : State) (code : Cause) : (s.raiseFault code).cc = s.cc := by
  unfold State.raiseFault; split <;> rfl

@[simp] theorem State.raiseFault_cfgValid (s : State) (code : Cause) : (s.raiseFault code).cfgValid = s.cfgValid := by
  unfold State.raiseFault; split <;> rfl

@[simp] theorem State.raiseFault_codec (s : State) (code : Cause) : (s.raiseFault code).codec = s.codec := by
  unfold State.raiseFault; split <;> rfl

@[simp] theorem State.raiseFault_ascLen (s : State) (code : Cause) : (s.raiseFault code).ascLen = s.ascLen := by
  unfold State.raiseFault; split <;> rfl

@[simp] theorem State.raiseFault_ascBuf (s : State) (code : Cause) : (s.raiseFault code).ascBuf = s.ascBuf := by
  unfold State.raiseFault; split <;> rfl

@[simp] theorem State.raiseFault_out (s : State) (code : Cause) : (s.raiseFault code).out = s.out := by
  unfold State.raiseFault; split <;> rfl

@[simp] theorem State.raiseFault_outCapacity (s : State) (code : Cause) : (s.raiseFault code).outCapacity = s.outCapacity := by
  unfold State.raiseFault; split <;> rfl

@[simp] theorem State.raiseFault_sinkGrants (s : State) (code : Cause) : (s.raiseFault code).sinkGrants = s.sinkGrants := by
  unfold State.raiseFault; split <;> rfl

@[simp] theorem State.raiseFault_port (s : State) (code : Cause) : (s.raiseFault code).port = s.port := by
  unfold State.raiseFault; split <;> rfl

@[simp] theorem State.raiseFault_reply (s : State) (code : Cause) : (s.raiseFault code).reply = s.reply := by
  unfold State.raiseFault; split <;> rfl

@[simp] theorem State.raiseFault_choices (s : State) (code : Cause) : (s.raiseFault code).choices = s.choices := by
  unfold State.raiseFault; split <;> rfl

/-! ## `drainOut` -/

@[simp] theorem State.drainOut_cc (s : State) (n : Nat) : (s.drainOut n).cc = s.cc := rfl
@[simp] theorem State.drainOut_cfgValid (s : State) (n : Nat) : (s.drainOut n).cfgValid = s.cfgValid := rfl
@[simp] theorem State.drainOut_codec (s : State) (n : Nat) : (s.drainOut n).codec = s.codec := rfl
@[simp] theorem State.drainOut_ascLen (s : State) (n : Nat) : (s.drainOut n).ascLen = s.ascLen := rfl
@[simp] theorem State.drainOut_ascBuf (s : State) (n : Nat) : (s.drainOut n).ascBuf = s.ascBuf := rfl
@[simp] theorem State.drainOut_fault (s : State) (n : Nat) : (s.drainOut n).fault = s.fault := rfl
@[simp] theorem State.drainOut_cause (s : State) (n : Nat) : (s.drainOut n).cause = s.cause := rfl
@[simp] theorem State.drainOut_outCapacity (s : State) (n : Nat) : (s.drainOut n).outCapacity = s.outCapacity := rfl
@[simp] theorem State.drainOut_sinkGrants (s : State) (n : Nat) : (s.drainOut n).sinkGrants = s.sinkGrants := rfl
@[simp] theorem State.drainOut_port (s : State) (n : Nat) : (s.drainOut n).port = s.port := rfl
@[simp] theorem State.drainOut_choices (s : State) (n : Nat) : (s.drainOut n).choices = s.choices := rfl
@[simp] theorem State.drainOut_out (s : State) (n : Nat) : (s.drainOut n).out = s.out.drop n := rfl
@[simp] theorem State.drainOut_reply (s : State) (n : Nat) : (s.drainOut n).reply = some (.drained (s.out.take n)) := rfl

/-! ## `holdForSink` -/

/-- All that holding a command can do: nothing, a larger sink, or a drain of OUT. -/
theorem State.holdForSink_cases (s : State) :
    (s.sinkGrants = [] ∧ s.holdForSink = s) ∨
    (∃ n rest, s.sinkGrants = .capacity n :: rest ∧
      s.holdForSink = { s with outCapacity := s.outCapacity.map (· + n), sinkGrants := rest }) ∨
    (∃ n rest, s.sinkGrants = .drain n :: rest ∧ s.holdForSink = { s.drainOut n with sinkGrants := rest }) := by
  unfold State.holdForSink
  split
  · next h => exact .inl ⟨h, rfl⟩
  · next n rest h => exact .inr (.inl ⟨n, rest, h, rfl⟩)
  · next n rest h => exact .inr (.inr ⟨n, rest, h, rfl⟩)

@[simp] theorem State.holdForSink_cc (s : State) : s.holdForSink.cc = s.cc := by
  unfold State.holdForSink; split <;> rfl

@[simp] theorem State.holdForSink_cfgValid (s : State) : s.holdForSink.cfgValid = s.cfgValid := by
  unfold State.holdForSink; split <;> rfl

@[simp] theorem State.holdForSink_codec (s : State) : s.holdForSink.codec = s.codec := by
  unfold State.holdForSink; split <;> rfl

@[simp] theorem State.holdForSink_ascLen (s : State) : s.holdForSink.ascLen = s.ascLen := by
  unfold State.holdForSink; split <;> rfl

@[simp] theorem State.holdForSink_ascBuf (s : State) : s.holdForSink.ascBuf = s.ascBuf := by
  unfold State.holdForSink; split <;> rfl

@[simp] theorem State.holdForSink_fault (s : State) : s.holdForSink.fault = s.fault := by
  unfold State.holdForSink; split <;> rfl

@[simp] theorem State.holdForSink_cause (s : State) : s.holdForSink.cause = s.cause := by
  unfold State.holdForSink; split <;> rfl

@[simp] theorem State.holdForSink_port (s : State) : s.holdForSink.port = s.port := by
  unfold State.holdForSink; split <;> rfl

@[simp] theorem State.holdForSink_choices (s : State) : s.holdForSink.choices = s.choices := by
  unfold State.holdForSink; split <;> rfl

/-! ## The configuration an emission reads -/

/-- Two states with the same length and the same bytes have the same stored configuration. -/
theorem State.asc_congr {s t : State} (hl : t.ascLen = s.ascLen) (hb : t.ascBuf = s.ascBuf) : t.asc = s.asc := by
  simp [State.asc, hl, hb]

end Sys2Proof.Machine
end

