-- ==== Sys2Proof/Laws/Framer.lean ====
section
/-! SUPPORT. Packet lengths and the counter of the framer, and what `EmitPackets` and `DoEmit` can do. -/

namespace Sys2Proof.Machine

/-- Every packet is 188 bytes (R157). -/
theorem length_framePacket {sec : Bytes} (cc : BitVec 4) (h : sec.length ≤ 182) : (framePacket sec cc).length = 188 := by
  simp [framePacket, packetPrefix, stuffingCount, maxSectionBytes, tsPacketSize, framerFixedBytes]
  omega

theorem length_framePackets {secs : List Bytes} (cc : BitVec 4) (h : ∀ sec ∈ secs, sec.length ≤ 182) :
    (framePackets secs cc).length = 188 * secs.length := by
  induction secs generalizing cc with
  | nil => rfl
  | cons sec rest ih =>
    rw [framePackets, List.length_append, length_framePacket cc (h sec (by simp)),
      ih _ (fun x hx => h x (by simp [hx])), List.length_cons]
    omega

theorem toNat_ccAfter (secs : List Bytes) (cc : BitVec 4) : (ccAfter secs cc).toNat = (cc.toNat + secs.length) % 16 := by
  induction secs generalizing cc with
  | nil => simp [ccAfter, Nat.mod_eq_of_lt cc.isLt]
  | cons sec rest ih =>
    rw [ccAfter, ih, toNat_nextCc, List.length_cons]
    omega

theorem tooLarge_eq_true {sec : Bytes} : tooLarge sec = true ↔ 182 < sec.length :=
  decide_eq_true_iff (p := 182 < sec.length)

theorem tooLarge_eq_false {sec : Bytes} : tooLarge sec = false ↔ sec.length ≤ 182 := by
  rw [← Bool.not_eq_true, tooLarge_eq_true, Nat.not_lt]

/-- Packet `k` is section `k` stamped with the counter `k` further on (R103). -/
theorem framePackets_eq_flatMap (secs : List Bytes) (cc : BitVec 4) :
    framePackets secs cc = (secs.zipIdx).flatMap (fun x => framePacket x.1 (cc + BitVec.ofNat 4 x.2)) := by
  suffices h : ∀ n, framePackets secs (cc + BitVec.ofNat 4 n) =
      (secs.zipIdx n).flatMap (fun x => framePacket x.1 (cc + BitVec.ofNat 4 x.2)) by
    simpa using h 0
  induction secs with
  | nil => intro n; rfl
  | cons sec rest ih =>
    intro n
    rw [framePackets, List.zipIdx_cons, List.flatMap_cons, ← ih (n + 1), nextCc, BitVec.ofNat_add, BitVec.add_assoc]

/-- All that `EmitPackets` can do (R156, R58). -/
theorem State.emitPackets_cases (s : State) (secs : List Bytes) :
    ((∃ sec ∈ secs, 182 < sec.length) ∧ s.emitPackets secs = (s.raiseFault .sectionTooLarge).complete) ∨
    ((∀ sec ∈ secs, sec.length ≤ 182) ∧ s.sinkAccepts (188 * secs.length) = true ∧
      s.emitPackets secs = s.commitPackets secs) ∨
    ((∀ sec ∈ secs, sec.length ≤ 182) ∧ s.sinkAccepts (188 * secs.length) = false ∧
      s.emitPackets secs = s.holdForSink) := by
  unfold State.emitPackets
  by_cases h : secs.any tooLarge = true
  · obtain ⟨sec, hm, hs⟩ := List.any_eq_true.mp h
    refine .inl ⟨⟨sec, hm, tooLarge_eq_true.mp hs⟩, by rw [if_pos h]⟩
  · have hall : ∀ sec ∈ secs, sec.length ≤ 182 := by
      intro sec hm
      rw [← tooLarge_eq_false]
      cases ht : tooLarge sec with
      | false => rfl
      | true => exact absurd (List.any_eq_true.mpr ⟨sec, hm, ht⟩) h
    right
    rw [if_neg h]
    cases hk : s.sinkAccepts (188 * secs.length) with
    | true => exact .inl ⟨hall, rfl, by simp [tsPacketSize, hk]⟩
    | false => exact .inr ⟨hall, rfl, by simp [tsPacketSize, hk]⟩

/-- All that `DoEmit` can do (R170, R205). -/
theorem State.doEmit_cases (s : State) (modes : List Mode) :
    (s.fault = true ∧ s.doEmit modes = s.complete) ∨
    (s.fault = false ∧ s.cfgValid = false ∧ s.doEmit modes = (s.raiseFault .notConfigured).complete) ∨
    (s.fault = false ∧ s.cfgValid = true ∧ s.doEmit modes = s.emitPackets (s.sections modes)) := by
  unfold State.doEmit
  cases hf : s.fault <;> cases hc : s.cfgValid <;> simp

@[simp] theorem State.length_sections (s : State) (modes : List Mode) : (s.sections modes).length = modes.length := by
  simp [State.sections]

@[simp] theorem State.length_asc (s : State) : s.asc.length = s.ascLen.toNat := by
  simp [State.asc]

/-- A section of the command is too large exactly when it is an encrypted one of a long AAC configuration (R154). -/
theorem State.exists_large_section (s : State) (modes : List Mode) :
    (∃ sec ∈ s.sections modes, 182 < sec.length) ↔
      s.codec = .aac ∧ 140 < s.ascLen.toNat ∧ ∃ m ∈ modes, m.isEncrypted = true := by
  have key : ∀ m, 182 < (buildSection s.codec m s.asc).length ↔
      s.codec = .aac ∧ m.isEncrypted = true ∧ 140 < s.ascLen.toNat := by
    intro m
    have h := tooLarge_buildSection s.codec m s.asc
    rw [State.length_asc] at h
    rw [← h, tooLarge_eq_true]
  constructor
  · rintro ⟨sec, hm, hl⟩
    obtain ⟨m, hmm, rfl⟩ := List.mem_map.mp hm
    obtain ⟨h1, h2, h3⟩ := (key m).mp hl
    exact ⟨h1, h3, m, hmm, h2⟩
  · rintro ⟨h1, h3, m, hmm, h2⟩
    exact ⟨_, List.mem_map.mpr ⟨m, hmm, rfl⟩, (key m).mpr ⟨h1, h2, h3⟩⟩

theorem State.sinkAccepts_iff (s : State) (n : Nat) :
    s.sinkAccepts n = true ↔ s.outCapacity = none ∨ ∃ c, s.outCapacity = some c ∧ s.out.length + n ≤ c := by
  unfold State.sinkAccepts
  cases s.outCapacity <;> simp

end Sys2Proof.Machine
end

