-- ==== Sys2Proof/Laws/PerInstr.lean ====
section
/-! SUPPORT. Statements made of every command as syntax, one lemma for each constructor of `Instr`. -/

namespace Sys2Proof.Laws.WordFields

/-- The opcode of R71. -/
def opcode : Instr → Nat
  | .writeClear => 1
  | .writeClearLead => 2
  | .writeEncrypted => 3
  | .init _ _ => 4

/-- A well-formed command's word has its opcode in bits [3:0] and 0 in the reserved bits [7:6] (R70, R71). -/
def Statement (i : Instr) : Prop :=
  i.wf = true → (encode i).1.toNat % 16 = opcode i ∧ (encode i).1.toNat / 64 % 4 = 0

theorem writeClear : Statement .writeClear := fun _ => by decide

theorem writeClearLead : Statement .writeClearLead := fun _ => by decide

theorem writeEncrypted : Statement .writeEncrypted := fun _ => by decide

theorem init (c : Codec) (data : Bytes) : Statement (.init c data) := by
  intro _
  have hc : c.code.toNat < 2 := by cases c <;> decide
  simp only [encode, toNat_initEncoding, opcode]
  omega

end Sys2Proof.Laws.WordFields
end

