-- ==== Sys2Proof/Laws/Step.lean ====
section
/-! SUPPORT. Everything a step can do, said once: by command word, by interaction, and for the whole step. -/

namespace Sys2Proof.Machine

/-- The modes a decoded WRITE_* command emits (R170). -/
def emissionModes : Cmd → Option (List Mode)
  | .writeClear => some [.clear]
  | .writeClearLead => some [.clearLeadFirst, .clearLeadSecond]
  | .writeEncrypted => some [.encrypted]
  | .init _ _ => none
  | .badCodec => none
  | .illegal => none

/-! ## `commitPackets` and `doInit`, field by field -/

section
variable (s : State) (secs : List Bytes) (c : Codec) (data : Bytes)

@[simp] theorem State.commitPackets_cc : (s.commitPackets secs).cc = ccAfter secs s.cc := rfl
@[simp] theorem State.commitPackets_out : (s.commitPackets secs).out = s.out ++ framePackets secs s.cc := rfl
@[simp] theorem State.commitPackets_port : (s.commitPackets secs).port = s.port.tail := rfl
@[simp] theorem State.commitPackets_cfgValid : (s.commitPackets secs).cfgValid = s.cfgValid := rfl
@[simp] theorem State.commitPackets_codec : (s.commitPackets secs).codec = s.codec := rfl
@[simp] theorem State.commitPackets_ascLen : (s.commitPackets secs).ascLen = s.ascLen := rfl
@[simp] theorem State.commitPackets_ascBuf : (s.commitPackets secs).ascBuf = s.ascBuf := rfl
@[simp] theorem State.commitPackets_fault : (s.commitPackets secs).fault = s.fault := rfl
@[simp] theorem State.commitPackets_cause : (s.commitPackets secs).cause = s.cause := rfl
@[simp] theorem State.commitPackets_outCapacity : (s.commitPackets secs).outCapacity = s.outCapacity := rfl
@[simp] theorem State.commitPackets_sinkGrants : (s.commitPackets secs).sinkGrants = s.sinkGrants := rfl
@[simp] theorem State.commitPackets_reply : (s.commitPackets secs).reply = s.reply := rfl
@[simp] theorem State.commitPackets_choices : (s.commitPackets secs).choices = s.choices := rfl

@[simp] theorem State.doInit_cc : (s.doInit c data).cc = 0#4 := rfl
@[simp] theorem State.doInit_cfgValid : (s.doInit c data).cfgValid = true := rfl
@[simp] theorem State.doInit_codec : (s.doInit c data).codec = c := rfl
@[simp] theorem State.doInit_ascLen : (s.doInit c data).ascLen = storedAscLen c data := rfl
@[simp] theorem State.doInit_ascBuf : (s.doInit c data).ascBuf = storedAscBuf c data s.ascBuf := rfl
@[simp] theorem State.doInit_fault : (s.doInit c data).fault = false := rfl
@[simp] theorem State.doInit_cause : (s.doInit c data).cause = .none := rfl
@[simp] theorem State.doInit_out : (s.doInit c data).out = s.out := rfl
@[simp] theorem State.doInit_port : (s.doInit c data).port = s.port.tail := rfl
@[simp] theorem State.doInit_outCapacity : (s.doInit c data).outCapacity = s.outCapacity := rfl
@[simp] theorem State.doInit_sinkGrants : (s.doInit c data).sinkGrants = s.sinkGrants := rfl
@[simp] theorem State.doInit_reply : (s.doInit c data).reply = s.reply := rfl
@[simp] theorem State.doInit_choices : (s.doInit c data).choices = s.choices := rfl

end

/-! ## What the operations can do -/

/-- All that `DoEmit` can do, the framer's part included: it is ignored, it faults, it commits or it is held. -/
theorem State.doEmit_outcomes (s : State) (modes : List Mode) :
    (s.fault = true ∧ s.doEmit modes = s.complete) ∨
    (s.fault = false ∧ s.cfgValid = false ∧
      s.doEmit modes = ({ s with fault := true, cause := .notConfigured }).complete) ∨
    (s.fault = false ∧ s.cfgValid = true ∧
      (s.codec = .aac ∧ 140 < s.ascLen.toNat ∧ ∃ m ∈ modes, m.isEncrypted = true) ∧
      s.doEmit modes = ({ s with fault := true, cause := .sectionTooLarge }).complete) ∨
    (s.fault = false ∧ s.cfgValid = true ∧ (∀ sec ∈ s.sections modes, sec.length ≤ 182) ∧
      s.sinkAccepts (188 * modes.length) = true ∧ s.doEmit modes = s.commitPackets (s.sections modes)) ∨
    (s.fault = false ∧ s.cfgValid = true ∧ (∀ sec ∈ s.sections modes, sec.length ≤ 182) ∧
      s.sinkAccepts (188 * modes.length) = false ∧ s.doEmit modes = s.holdForSink) := by
  obtain ⟨hf, h⟩ | ⟨hf, hc, h⟩ | ⟨hf, hc, h⟩ := s.doEmit_cases modes
  · exact .inl ⟨hf, h⟩
  · exact .inr (.inl ⟨hf, hc, by rw [h, State.raiseFault_of_clear _ _ hf]⟩)
  · obtain ⟨hl, he⟩ | ⟨hl, ha, he⟩ | ⟨hl, ha, he⟩ := s.emitPackets_cases (s.sections modes)
    · refine .inr (.inr (.inl ⟨hf, hc, (s.exists_large_section modes).mp hl, ?_⟩))
      rw [h, he, State.raiseFault_of_clear _ _ hf]
    · rw [State.length_sections] at ha
      exact .inr (.inr (.inr (.inl ⟨hf, hc, hl, ha, h.trans he⟩)))
    · rw [State.length_sections] at ha
      exact .inr (.inr (.inr (.inr ⟨hf, hc, hl, ha, h.trans he⟩)))

theorem State.doIllegal_of_fault {s : State} (h : s.fault = true) : s.doIllegal = s.complete := by
  rw [State.doIllegal, State.raiseFault_of_fault _ _ h]

theorem State.doIllegal_of_clear {s : State} (h : s.fault = false) :
    s.doIllegal = ({ s with fault := true, cause := .illegalCommand }).complete := by
  rw [State.doIllegal, State.raiseFault_of_clear _ _ h]

theorem State.doBadCodec_of_fault {s : State} (h : s.fault = true) : s.doBadCodec = s.complete := by
  rw [State.doBadCodec, if_pos h]

theorem State.doBadCodec_of_clear {s : State} (h : s.fault = false) :
    s.doBadCodec = ({ s with cfgValid := false, fault := true, cause := .unsupportedCodec }).complete := by
  rw [State.doBadCodec, if_neg (by rw [h]; decide), State.raiseFault_of_clear _ _ (by exact h)]

/-- Where sections fit, an encrypted AAC one has at most 140 bytes of configuration (R154). -/
theorem State.sections_fit_iff (s : State) (modes : List Mode) :
    (∀ sec ∈ s.sections modes, sec.length ≤ 182) ↔
      (s.codec = .aac → (∃ m ∈ modes, m.isEncrypted = true) → s.ascLen.toNat ≤ 140) := by
  have h := not_congr (s.exists_large_section modes)
  simp only [not_exists, not_and, Nat.not_lt] at h
  rw [h]
  constructor
  · rintro h hc ⟨m, hm, he⟩
    by_contra hlt
    exact h hc (by omega) m hm he
  · intro h hc hlt m hm he
    exact absurd (h hc ⟨m, hm, he⟩) (by omega)

/-- All that a transaction can do when it leads to a next state. -/
theorem State.serveCommand_cases {s t : State} {w : CmdWord} {data : Bytes} (h : s.serveCommand w data = .next t) :
    (decodeWord w = .illegal ∧ t = s.doIllegal) ∨
    (decodeWord w = .badCodec ∧ t = s.doBadCodec) ∨
    (∃ c n, decodeWord w = .init c n ∧ data.length = n.toNat ∧ t = s.doInit c data) ∨
    (∃ modes, emissionModes (decodeWord w) = some modes ∧ data = [] ∧ t = s.doEmit modes) := by
  unfold State.serveCommand decode at h
  cases hw : decodeWord w with
  | illegal => simp [hw] at h; exact .inl ⟨rfl, h.symm⟩
  | badCodec => simp [hw] at h; exact .inr (.inl ⟨rfl, h.symm⟩)
  | init c n =>
    simp only [hw] at h
    split at h
    · next i hi =>
      split at hi
      · next hl =>
        cases hi
        have hn : data.length ≤ ascLenMax := by have := n.isLt; simp only [ascLenMax]; omega
        simp only [exec, execInit, if_pos hn, Host.Outcome.next.injEq] at h
        exact .inr (.inr (.inl ⟨c, n, rfl, hl, h.symm⟩))
      · cases hi
    · next hi => split at hi <;> cases hi
    · next hi => split at hi <;> cases hi
    · cases h
  | writeClear =>
    by_cases hd : data = [] <;> simp [hw, withoutData, hd, exec, execWriteClear] at h
    exact .inr (.inr (.inr ⟨_, rfl, hd, h.symm⟩))
  | writeClearLead =>
    by_cases hd : data = [] <;> simp [hw, withoutData, hd, exec, execWriteClearLead] at h
    exact .inr (.inr (.inr ⟨_, rfl, hd, h.symm⟩))
  | writeEncrypted =>
    by_cases hd : data = [] <;> simp [hw, withoutData, hd, exec, execWriteEncrypted] at h
    exact .inr (.inr (.inr ⟨_, rfl, hd, h.symm⟩))

/-- A transaction of the length its word fixes is served; any other stops the machine. -/
theorem State.serveCommand_total (s : State) (w : CmdWord) (data : Bytes) :
    (dataFits w data = true ∧ ∃ t, s.serveCommand w data = .next t) ∨
    (dataFits w data = false ∧ s.serveCommand w data = .fault .malformedTransaction) := by
  unfold State.serveCommand decode dataFits
  cases hw : decodeWord w with
  | illegal => exact .inl ⟨rfl, _, rfl⟩
  | badCodec => exact .inl ⟨rfl, _, rfl⟩
  | init c n =>
    by_cases hl : data.length = n.toNat
    · have hn : data.length ≤ ascLenMax := by have := n.isLt; simp only [ascLenMax]; omega
      left
      simp only [if_pos hl, exec, execInit, if_pos hn]
      exact ⟨by simp [hl], _, rfl⟩
    · exact .inr ⟨by simp [hl], by simp only [if_neg hl]⟩
  | writeClear => by_cases hd : data = [] <;> simp [withoutData, hd, exec, execWriteClear]
  | writeClearLead => by_cases hd : data = [] <;> simp [withoutData, hd, exec, execWriteClearLead]
  | writeEncrypted => by_cases hd : data = [] <;> simp [withoutData, hd, exec, execWriteEncrypted]

/-- All that a step can do when it leads to a next state. -/
theorem step_cases {s t : State} (h : step s = .next t) :
    (s.port = [] ∧ t = s) ∨
    (∃ w data rest, s.port = .command w data :: rest ∧ s.serveCommand w data = .next t) ∨
    (∃ w data rest u, s.port = .commandDuringReset w data :: rest ∧
      ({ s with choices := s.choices + 1 } : State).serveCommand w data = .next u ∧ t = s.resetAfter u) ∨
    (∃ w data rest, s.port = .commandDuringReset w data :: rest ∧
      t = ({ s with choices := s.choices + 1 } : State).serveReset) ∨
    (∃ rest, s.port = .reset :: rest ∧ t = s.serveReset) ∨
    (∃ rest, s.port = .readStatus :: rest ∧ t = s.serveReadStatus) ∨
    (∃ rest, s.port = .clearOut :: rest ∧ t = s.serveClearOut) ∨
    (∃ n rest, s.port = .drainOut n :: rest ∧ t = s.serveDrainOut n) ∨
    (∃ rest, s.port = .readOutSize :: rest ∧ t = s.serveReadOutSize) := by
  unfold step State.serve at h
  split at h
  · next hp => exact .inl ⟨hp, (Host.Outcome.next.inj h).symm⟩
  · next w data rest hp => exact .inr (.inl ⟨w, data, rest, hp, h⟩)
  · next w data rest hp =>
    unfold State.serveCommandDuringReset at h
    split at h
    · split at h
      · next u hu => exact .inr (.inr (.inl ⟨w, data, rest, u, hp, hu, (Host.Outcome.next.inj h).symm⟩))
      · cases h
      · cases h
    · exact .inr (.inr (.inr (.inl ⟨w, data, rest, hp, (Host.Outcome.next.inj h).symm⟩)))
  · next rest hp => exact .inr (.inr (.inr (.inr (.inl ⟨rest, hp, (Host.Outcome.next.inj h).symm⟩))))
  · next rest hp => exact .inr (.inr (.inr (.inr (.inr (.inl ⟨rest, hp, (Host.Outcome.next.inj h).symm⟩)))))
  · next rest hp => exact .inr (.inr (.inr (.inr (.inr (.inr (.inl ⟨rest, hp, (Host.Outcome.next.inj h).symm⟩))))))
  · next n rest hp =>
    exact .inr (.inr (.inr (.inr (.inr (.inr (.inr (.inl ⟨n, rest, hp, (Host.Outcome.next.inj h).symm⟩)))))))
  · next rest hp => exact .inr (.inr (.inr (.inr (.inr (.inr (.inr (.inr ⟨rest, hp, (Host.Outcome.next.inj h).symm⟩)))))))

/-- A step on a transaction is the transaction's service. -/
theorem step_command {s : State} {w : CmdWord} {data : Bytes} {rest : List HostEvent}
    (hp : s.port = .command w data :: rest) : step s = s.serveCommand w data := by
  simp [step, State.serve, hp]

/-! ## Runs -/

theorem runSteps_succ_of_next {s t : State} (n : Nat) (h : step s = .next t) : runSteps (n + 1) s = runSteps n t := by
  rw [runSteps, h]

/-- A run of `n + 1` steps that leads to a next state begins with a step that does. -/
theorem runSteps_succ {s u : State} {n : Nat} (h : runSteps (n + 1) s = .next u) :
    ∃ t, step s = .next t ∧ runSteps n t = .next u := by
  rw [runSteps] at h
  cases hs : step s with
  | next t => rw [hs] at h; exact ⟨t, rfl, h⟩
  | fault r => rw [hs] at h; cases h
  | refused r => rw [hs] at h; cases h

theorem appendedOver_succ_of_next {s t : State} (n : Nat) (h : step s = .next t) :
    appendedOver (n + 1) s = t.out.drop s.out.length ++ appendedOver n t := by
  rw [appendedOver, h]

theorem takenOver_succ_of_next {s t : State} (n : Nat) (h : step s = .next t) :
    takenOver (n + 1) s = (s.out.length - t.out.length) + takenOver n t := by
  rw [takenOver, h]

/-- What every step keeps, every run keeps. -/
theorem runSteps_keeps {P : State → Prop} (hstep : ∀ s t, P s → step s = .next t → P t) {n : Nat} {s u : State}
    (hs : P s) (h : runSteps n s = .next u) : P u := by
  induction n generalizing s with
  | zero => cases h; exact hs
  | succ n ih =>
    obtain ⟨t, hst, hrun⟩ := runSteps_succ h
    exact ih (hstep s t hs hst) hrun

end Sys2Proof.Machine
end

