-- ==== Sys2Proof/Tests/Slice0.lean ====
section
/-! SUPPORT. Tests whose expected results are the spec's own (95_test_vectors.md and the examples of the rules), and for each
obligation with hypotheses a concrete state that meets them. -/

open Sys2Proof Sys2Proof.Machine Sys2Proof.Claims

namespace Sys2Proof.Tests

-- One theorem at a time, so that the build needs few threads.
set_option Elab.async false

/-! ## Small states -/

/-- The block after INIT from reset. -/
def writer (c : Codec) (asc : Bytes) : State := State.reset.doInit c asc

/-- A command transaction waits at the port, and a STATUS read behind it. -/
def withCommand (s : State) (w : CmdWord) (data : Bytes) : State :=
  { s with port := [.command w data, .readStatus] }

/-- What a step leads to, looked at through `f`. -/
def seen {α : Type} (f : State → α) : Host.Outcome State Fault Refusal → Option α
  | .next s => some (f s)
  | .fault _ => none
  | .refused _ => none

/-- STATUS, CC and the length of OUT. -/
def view (s : State) : BitVec 8 × BitVec 4 × Nat := (s.status, s.cc, s.out.length)

/-! ## Well-formedness -/

/-- R73: the data vector's length is an 8-bit count. -/
theorem test_wf_refuses_256_data_bytes : (Instr.init .aac (List.replicate 256 0#8)).wf = false := by decide +kernel

theorem test_wf_accepts_255_data_bytes : (Instr.init .aac (List.replicate 255 0#8)).wf = true := by decide +kernel

/-! ## Decoding: 95_test_vectors.md section 6, words written out from R70's fields ASC_LEN, RSV, CODEC, OP -/

theorem test_decode_writeClear : decode 0b00000000_00_00_0001#16 [] = .ok .writeClear := by rfl

theorem test_decode_writeClearLead : decode 0b00000000_00_00_0010#16 [] = .ok .writeClearLead := by rfl

theorem test_decode_writeEncrypted : decode 0b00000000_00_00_0011#16 [] = .ok .writeEncrypted := by rfl

theorem test_decode_init_h264 : decode 0b00000000_00_00_0100#16 [] = .ok (.init .h264 []) := by rfl

theorem test_decode_init_aac :
    decode 0b00000010_00_01_0100#16 [0x12#8, 0x10#8] = .ok (.init .aac [0x12#8, 0x10#8]) := by rfl

theorem test_decode_init_lengths :
    decodeWord 0xFF14#16 = .init .aac 255#8 ∧ decodeWord 0x1004#16 = .init .h264 16#8 ∧
    decodeWord 0x0014#16 = .init .aac 0#8 := by decide

theorem test_decode_illegal_words :
    [0x0000#16, 0x0044#16, 0x0084#16, 0x0005#16, 0x000F#16, 0x0011#16, 0x0101#16, 0x8003#16].map decodeWord =
      List.replicate 8 .illegal := by decide

theorem test_decode_bad_codecs : decodeWord 0x0024#16 = .badCodec ∧ decodeWord 0x0034#16 = .badCodec := by decide

/-- R171's encodings. -/
theorem test_encode_words :
    encode (.init .aac [0x12#8, 0x10#8]) = (0x0214#16, [0x12#8, 0x10#8]) ∧ encode (.init .h264 []) = (0x0004#16, []) ∧
    encode .writeClearLead = (0x0002#16, []) := by decide

theorem test_decodeTableWord : decodeTableWord 16 0x0214 = some (.init .aac [0#8, 0#8]) ∧ decodeTableWord 16 0x0024 = none := by
  decide

/-! ## CRC: 95_test_vectors.md section 3 -/

theorem test_crc_of_the_example_body :
    crc32 [0x02#8, 0xB0#8, 0x12#8, 0x00#8, 0x01#8, 0xC1#8, 0x00#8, 0x00#8, 0xE0#8, 0x50#8, 0xF0#8, 0x00#8, 0x1B#8,
      0xE0#8, 0x50#8, 0xF0#8, 0x00#8] = 0x434997BE#32 := by decide +kernel

theorem test_crc_short_inputs : crc32 [0xFF#8] = 0xFFFFFF00#32 ∧ crc32 [0#8, 0#8, 0#8, 0#8] = 0xC704DD7B#32 := by
  decide +kernel

/-! ## Sections: 95_test_vectors.md section 4 -/

/-- T-SB-7. -/
theorem test_section_aac_second : buildSection .aac .clearLeadSecond [0x12#8, 0x10#8] =
    [0x00#8, 0x02#8, 0xB0#8, 0x28#8, 0x00#8, 0x01#8, 0xC2#8, 0x00#8, 0x00#8, 0xE0#8, 0x50#8, 0xF0#8, 0x00#8, 0xCF#8,
      0xE0#8, 0x50#8, 0xF0#8, 0x16#8, 0x0F#8, 0x04#8, 0x61#8, 0x61#8, 0x63#8, 0x64#8, 0x05#8, 0x0E#8, 0x61#8, 0x70#8,
      0x61#8, 0x64#8, 0x7A#8, 0x61#8, 0x61#8, 0x63#8, 0x00#8, 0x00#8, 0x01#8, 0x02#8, 0x12#8, 0x10#8, 0x5C#8, 0x60#8,
      0xB2#8, 0x55#8] := by decide +kernel

/-- T-SB-9. -/
theorem test_section_aac_empty : buildSection .aac .encrypted [] =
    [0x00#8, 0x02#8, 0xB0#8, 0x26#8, 0x00#8, 0x01#8, 0xC1#8, 0x00#8, 0x00#8, 0xE0#8, 0x50#8, 0xF0#8, 0x00#8, 0xCF#8,
      0xE0#8, 0x50#8, 0xF0#8, 0x14#8, 0x0F#8, 0x04#8, 0x61#8, 0x61#8, 0x63#8, 0x64#8, 0x05#8, 0x0C#8, 0x61#8, 0x70#8,
      0x61#8, 0x64#8, 0x7A#8, 0x61#8, 0x61#8, 0x63#8, 0x00#8, 0x00#8, 0x01#8, 0x00#8, 0x0C#8, 0xC9#8, 0x44#8, 0x36#8] := by
  decide +kernel

/-! ## One step of each command -/

/-- T-SRC-1: the header and the section of the first packet. -/
theorem test_writeClear_packet :
    seen (fun t => (t.out.take 7, t.out.drop 165, t.cc)) (exec .writeClear (writer .h264 [])) =
      some ([0x47#8, 0x40#8, 0x20#8, 0x30#8, 0xA1#8, 0x00#8, 0xFF#8], 0xFF#8 :: clearSection .h264, 1#4) := by
  decide +kernel

/-- T-F-8: Clear never faults, whatever the configuration's length. -/
theorem test_writeClear_long_asc :
    seen view (exec .writeClear (writer .aac (List.replicate 141 0#8))) = some (0x06#8, 1#4, 188) := by decide +kernel

/-- T-CC-6: the nibbles F and 0 of a pair, at bytes 3 and 191, and the counter after. -/
theorem test_writeClearLead_wraps :
    seen (fun t => (t.out[3]?, t.out[191]?, t.cc, t.out.length))
      (exec .writeClearLead { writer .h264 [] with cc := 15#4 }) = some (some 0x3F#8, some 0x30#8, 1#4, 376) := by
  decide +kernel

/-- T-F-7: nothing is appended and the counter keeps its value. -/
theorem test_writeClearLead_too_large :
    seen view (exec .writeClearLead { writer .aac (List.replicate 141 0#8) with cc := 5#4 }) =
      some (0x37#8, 5#4, 0) := by decide +kernel

/-- R174's corner case: with 140 bytes there is no stuffing. -/
theorem test_writeEncrypted_without_stuffing :
    seen (fun t => (t.out.take 8, t.out.length)) (exec .writeEncrypted (writer .aac (List.replicate 140 0xAB#8))) =
      some ([0x47#8, 0x40#8, 0x20#8, 0x30#8, 0x01#8, 0x00#8, 0x00#8, 0x02#8], 188) := by decide +kernel

/-- T-F-1: an emission before any construction. -/
theorem test_writeEncrypted_unconfigured : seen view (exec .writeEncrypted State.reset) = some (0x41#8, 0#4, 0) := by
  decide

/-- R171's example. -/
theorem test_init_aac :
    seen (fun t => (t.status, t.ascLen, t.ascBuf.read 0, t.ascBuf.read 1))
      (exec (.init .aac [0x12#8, 0x10#8]) State.reset) = some (0x06#8, 2#8, 0x12#8, 0x10#8) := by decide

/-- T-F-4: INIT clears the fault, and H264 discards its data (R73). -/
theorem test_init_h264_clears_the_fault :
    seen (fun t => (t.status, t.ascLen)) (exec (.init .h264 [0xAA#8]) { State.reset with fault := true, cause := .notConfigured }) =
      some (0x02#8, 0#8) := by decide

/-- T-F-5, T-F-6 and T-F-3: the words that are no command, before and after a fault. -/
theorem test_step_illegal_word : seen view (step (withCommand (writer .h264 []) 0x0011#16 [])) = some (0x13#8, 0#4, 0) := by
  decide

theorem test_step_bad_codec : seen view (step (withCommand (writer .h264 []) 0x0034#16 [])) = some (0x21#8, 0#4, 0) := by
  decide

theorem test_step_ignored :
    seen view (step (withCommand { State.reset with fault := true, cause := .notConfigured } 0x0024#16 [])) =
      some (0x41#8, 0#4, 0) := by decide

/-- The command of a table row is the next step's. -/
theorem test_withFetchWord : seen view (step (State.reset.withFetchWord 16 0x0214)) = some (0x06#8, 0#4, 0) := by decide

/-! ## ASC_BUF -/

theorem test_memory_canonical :
    (Memory.write [(3, 7#8)] 1 5#8) = [(1, 5#8), (3, 7#8)] ∧ Memory.write [(3, 7#8)] 3 0#8 = [] ∧
    (Memory.write [(3, 7#8)] 254 1#8).wf := by decide

/-! ## Witnesses: states that meet the obligations' hypotheses

`ready_exact` has a sink with room for exactly the bytes asked for, the boundary of `HasRoom`. -/

/-- A writer whose sink holds exactly `n` bytes. -/
def exactly (c : Codec) (asc : Bytes) (n : Nat) : State := { writer c asc with outCapacity := some n }

theorem ready_exact (c : Codec) (asc : Bytes) (n : Nat) : Ready (exactly c asc n) n :=
  ⟨rfl, rfl, .inr ⟨n, rfl, by simp [exactly, writer, State.doInit, State.complete, State.clearFault, State.reset]⟩⟩

theorem ready_unbounded (c : Codec) (asc : Bytes) (n : Nat) : Ready (writer c asc) n := ⟨rfl, rfl, .inl rfl⟩

/-- DecodeOfEncodeGivesTheCommand, at the longest data vector. -/
theorem witness_wf : (Instr.init .h264 (List.replicate 255 1#8)).wf = true := by decide +kernel

/-- EncodeOfDecodeGivesTheTransaction. -/
theorem witness_decode : decode 0x0114#16 [9#8] = .ok (.init .aac [9#8]) := by rfl

/-- StepRunsTheDecodedCommand, CommandWithRoomCompletesInOneStep: exactly the room for two packets and for one. -/
theorem witness_step :
    (withCommand (exactly .aac [9#8] 376) 0x0002#16 []).port = .command 0x0002#16 [] :: [.readStatus] ∧
    decode 0x0002#16 [] = .ok .writeClearLead ∧ dataFits 0x0002#16 [] = true ∧
    HasRoom (withCommand (exactly .aac [9#8] 376) 0x0002#16 []) (188 * packetsOf .writeClearLead) ∧
    HasRoom (withCommand (exactly .aac [9#8] 188) 0x0003#16 []) (188 * packetsOf .writeEncrypted) :=
  ⟨rfl, rfl, rfl, .inr ⟨376, rfl, by decide⟩, .inr ⟨188, rfl, by decide⟩⟩

/-- IdleBlockKeepsItsState. -/
theorem witness_idle : (writer .aac [1#8]).port = [] := rfl

/-- DecodeFollowsTheFieldsOfEveryWord and IllegalWordFaultsAndDoesNothingElse, a word for each of the three kinds. -/
theorem witness_illegal :
    (withCommand (writer .h264 []) 0x0005#16 []).fault = false ∧ IllegalWord 0x0005#16 ∧ IllegalWord 0x0000#16 ∧
    IllegalWord 0x0044#16 ∧ IllegalWord 0x0013#16 ∧ decodeWord 0x0005#16 = .illegal ∧
    ¬ IllegalWord 0x0003#16 ∧ ¬ ReservedCodecWord 0x0003#16 := by
  unfold IllegalWord ReservedCodecWord; decide

/-- CodecFieldSelectsTheVariantOrFaults, InitConstructsAWriter's third part: the reserved codes 2 and 3. -/
theorem witness_reserved_codec :
    ReservedCodecWord 0x0024#16 ∧ ReservedCodecWord 0x0034#16 ∧ decodeWord 0x0024#16 = .badCodec ∧
    (withCommand (writer .aac [1#8]) 0x0024#16 []).fault = false ∧
    (0x0014#16).toNat / 16 % 4 = 1 ∧ (0x0004#16).toNat / 16 % 4 = 0 ∧
    (0x00C4#16).toNat % 16 = 4 ∧ (0x00C4#16).toNat / 64 % 4 ≠ 0 := by
  unfold ReservedCodecWord; decide

/-- WellFormedTransactionsNeverStopTheMachine. -/
theorem witness_well_formed : ∀ e ∈ (withCommand State.reset 0x0114#16 [7#8]).port.head?, e.wf = true := by decide

/-- OnlyAMalformedTransactionStops: both sides of the equivalence occur. -/
theorem witness_malformed :
    step (withCommand State.reset 0x0214#16 [1#8]) = .fault .malformedTransaction ∧ dataFits 0x0214#16 [1#8] = false ∧
    dataFits 0x0214#16 [1#8, 2#8] = true := ⟨rfl, rfl, rfl⟩

/-- InteractionsAreServedInOrder and OutGrowsByWholePackets: a step that serves and one that holds. -/
theorem witness_next :
    seen (fun t => t.port.length) (step (withCommand (writer .h264 []) 0x0001#16 [])) = some 1 ∧
    seen (fun t => t.port.length) (step (withCommand (exactly .h264 [] 187) 0x0001#16 [])) = some 2 := by decide

/-- InitConstructsAWriter and ResetBeforeInitMakesNoDifference, at 0 and at 255 bytes. -/
theorem witness_init : ([] : Bytes).length ≤ 255 ∧ (List.replicate 255 3#8).length ≤ 255 := by decide +kernel

/-- The three emission statements, EmissionIsAllOrNothing and HistoryShowsOnlyInTheCounter: at the longest
configuration that fits, with exact room. -/
theorem witness_ready :
    Ready (exactly .aac (List.replicate 140 1#8) 188) 188 ∧ Ready (exactly .aac (List.replicate 140 1#8) 376) 376 ∧
    Ready (exactly .aac (List.replicate 140 1#8) 564) 564 ∧
    (exactly .aac (List.replicate 140 1#8) 564).ascLen.toNat ≤ 140 ∧
    (exactly .aac (List.replicate 140 1#8) 564).cc = 0#4 ∧ Ready (writer .h264 []) 564 :=
  ⟨ready_exact _ _ _, ready_exact _ _ _, ready_exact _ _ _, by decide +kernel, rfl, ready_unbounded _ _ _⟩

/-- The emission statements' fault parts: no writer, and 141 bytes. -/
theorem witness_emission_faults :
    State.reset.fault = false ∧ State.reset.cfgValid = false ∧
    (writer .aac (List.replicate 141 1#8)).fault = false ∧ (writer .aac (List.replicate 141 1#8)).cfgValid = true ∧
    (writer .aac (List.replicate 141 1#8)).codec = .aac ∧ 140 < (writer .aac (List.replicate 141 1#8)).ascLen.toNat := by
  decide +kernel

/-- The emission statements' word parts. -/
theorem witness_emission_words :
    (0x0001#16).toNat % 16 = 1 ∧ (0x0012#16).toNat % 16 = 2 ∧ (0x0012#16).toNat / 16 ≠ 0 ∧
    (0x8003#16).toNat % 16 = 3 := by decide

/-- EmissionLeavesTheConfigurationAlone, on a path that commits and on one that faults. -/
theorem witness_emission_next :
    isEmission .writeEncrypted ∧ (∃ t, exec .writeEncrypted (writer .aac [5#8]) = .next t) ∧
    ∃ t, exec .writeEncrypted State.reset = .next t := ⟨trivial, ⟨_, rfl⟩, ⟨_, rfl⟩⟩

/-- CommandWithoutRoomIsHeld, one byte short, with no grant, with a larger sink and with a drain. -/
theorem witness_held :
    (exactly .h264 [] 187).outCapacity = some 187 ∧
    187 < (exactly .h264 [] 187).out.length + 188 * packetsOf .writeClear ∧ (exactly .h264 [] 187).sinkGrants = [] ∧
    ({ exactly .aac (List.replicate 140 1#8) 187 with sinkGrants := [.capacity 1] } : State).sinkGrants =
      .capacity 1 :: [] ∧
    ({ exactly .aac (List.replicate 140 1#8) 187 with sinkGrants := [.drain 1] } : State).sinkGrants = .drain 1 :: [] ∧
    (exactly .aac (List.replicate 140 1#8) 187).ascLen.toNat ≤ 140 := by decide +kernel

/-- A full sink: OUT holds 188 bytes and can hold no more. The command at the port's head waits. -/
def full (w : CmdWord) (grants : List SinkGrant) : State :=
  { withCommand (exactly .h264 [] 188) w [] with out := List.replicate 188 7#8, sinkGrants := grants }

/-- HeldCommandCompletesOnceThereIsRoom: two grants that make exactly the room, for one packet and for two. -/
theorem witness_held_completes :
    (([.drain 100, .capacity 88] : List SinkGrant).foldl afterGrant (188, List.replicate 188 7#8)).2.length +
        188 * packetsOf .writeEncrypted ≤
      (([.drain 100, .capacity 88] : List SinkGrant).foldl afterGrant (188, List.replicate 188 7#8)).1 ∧
    (([.drain 188, .capacity 188] : List SinkGrant).foldl afterGrant (188, List.replicate 188 7#8)).2.length +
        188 * packetsOf .writeClearLead ≤
      (([.drain 188, .capacity 188] : List SinkGrant).foldl afterGrant (188, List.replicate 188 7#8)).1 ∧
    decode 0x0003#16 [] = .ok .writeEncrypted ∧ isEmission .writeEncrypted ∧
    (full 0x0003#16 ([.drain 100, .capacity 88] ++ [.drain 9])).outCapacity = some 188 ∧
    ∃ u, exec .writeEncrypted { full 0x0003#16 ([.drain 100, .capacity 88] ++ [.drain 9]) with outCapacity := none } =
      .next u :=
  ⟨by decide, by decide, rfl, trivial, rfl, _, rfl⟩

/-- R58: a command that a drain makes room for is held for one step and then runs. -/
theorem test_held_then_completes :
    seen (fun t => (t.out.length, t.cc, t.port.length)) (runSteps 1 (full 0x0001#16 [.drain 188])) = some (0, 0#4, 2) ∧
    seen (fun t => (t.out.length, t.cc, t.port.length)) (runSteps 2 (full 0x0001#16 [.drain 188])) =
      some (188, 1#4, 1) := by decide +kernel

/-- R41: a drain takes bytes out of OUT and hands them to the host. -/
theorem test_drain :
    seen (fun t => (t.out, t.reply, t.cc)) (step { State.reset with out := [1#8, 2#8, 3#8], port := [.drainOut 2] }) =
      some ([3#8], some (.drained [1#8, 2#8]), 0#4) := by decide

/-- RaisingAFaultKeepsTheFirstCause: both cases occur. -/
theorem witness_raise : (writer .h264 []).fault = false ∧ (State.reset.raiseFault .illegalCommand).fault = true := by decide

/-- FaultedBlockIgnoresAllButInit: a command, and a stream of a legal, an illegal and an unsupported word. -/
theorem witness_ignored :
    dataFits 0x0003#16 [] = true ∧ (withCommand (State.reset.raiseFault .notConfigured) 0x0003#16 []).fault = true ∧
    isInitWord 0x0003#16 = false ∧
    [0x0001#16, 0x0011#16, 0x0024#16].map (dataFits · []) = [true, true, true] ∧
    [0x0001#16, 0x0011#16, 0x0024#16].map isInitWord = [false, false, false] := by decide

/-- FaultsArePrecise and FaultCausesHaveTheirOrder: a step from FAULT = 0 to FAULT = 1 for each of the four causes. -/
theorem witness_faulting_steps :
    seen State.cause (step (withCommand (writer .h264 []) 0x0011#16 [])) = some .illegalCommand ∧
    seen State.cause (step (withCommand (writer .h264 []) 0x0024#16 [])) = some .unsupportedCodec ∧
    seen State.cause (step (withCommand State.reset 0x0003#16 [])) = some .notConfigured ∧
    seen State.cause (step (withCommand (writer .aac (List.replicate 141 1#8)) 0x0003#16 [])) = some .sectionTooLarge := by
  decide +kernel

/-- OnlyInitOrResetClearsTheFault: a step that clears the fault, by each event, and one that keeps it. -/
theorem witness_clears :
    seen State.fault (step (withCommand (State.reset.raiseFault .notConfigured) 0x0004#16 [])) = some false ∧
    seen State.fault (step { State.reset.raiseFault .notConfigured with port := [.reset] }) = some false ∧
    seen State.fault (step { State.reset.raiseFault .notConfigured with port := [.readStatus] }) = some true := by
  decide

/-- StoredConfigurationIsImmutable: an interaction that does not restart, and its step. -/
theorem witness_immutable :
    (HostEvent.command 0x0001#16 []).restarts = false ∧
    ∃ t, step (withCommand (writer .aac [1#8]) 0x0001#16 []) = .next t := ⟨rfl, _, rfl⟩

/-- StatusPacksTheFlags and HostOperationsOnOutChangeNoBlockState. -/
theorem witness_host_operations :
    ({ State.reset with port := [.readStatus] } : State).port = .readStatus :: [] ∧
    ({ State.reset with port := [.clearOut] } : State).port = .clearOut :: [] ∧
    ({ State.reset with port := [.drainOut 0] } : State).port = .drainOut 0 :: [] ∧
    ({ State.reset with port := [.readOutSize] } : State).port = .readOutSize :: [] := ⟨rfl, rfl, rfl, rfl⟩

/-- ResetSetsEveryStateElement: a RESET between commands, and one during a command, which would complete. -/
theorem witness_reset_during :
    ({ writer .h264 [] with port := [.reset] } : State).port = .reset :: [] ∧
    seen (fun u => u.port) (({ ({ writer .h264 [] with port := [.commandDuringReset 0x0001#16 []] } : State) with
      choices := 1 } : State).serveCommand 0x0001#16 []) = some [] ∧
    ∃ t, step { writer .h264 [] with port := [.commandDuringReset 0x0001#16 []] } = .next t := by
  refine ⟨rfl, by decide, ?_⟩
  cases h : Config.commandBeatsReset 0 <;>
    simp [step, State.serve, State.serveCommandDuringReset, writer, State.reset, State.doInit, State.clearFault,
      State.complete, h, State.serveCommand, decode, decodeWord, opField, writeWord, highField, withoutData, exec,
      execWriteClear]

/-- ResetDuringAHeldCommandWaitsOrHappens: a command that is one byte short of room. -/
theorem witness_reset_held :
    seen (fun u => u.port.length) (({ exactly .h264 [] 187 with
      port := [.commandDuringReset 0x0001#16 []], choices := 1 } : State).serveCommand 0x0001#16 []) = some 1 := by
  decide +kernel

/-- PacketsCarryTheirIndexModuloSixteen: a state that counts, with commands, a read and a drain pending, and a run; and
interactions and grants that take nothing. -/
theorem witness_counts :
    (writer .h264 []).CountsFrom [] [] 0 ∧
    [HostEvent.command 0x0002#16 [], .command 0x0011#16 [], .readOutSize, .drainOut 3, .clearOut].map HostEvent.restarts =
      List.replicate 5 false ∧
    [HostEvent.command 0x0002#16 [], .readOutSize].map HostEvent.takesBytes = List.replicate 2 false ∧
    (SinkGrant.capacity 3).takesBytes = false ∧
    (∃ t, exec (.init .aac [1#8]) State.reset = .next t) ∧
    (∃ t, step { State.reset with port := [.reset] } = .next t) ∧
    ∃ t, runSteps 2 { writer .h264 [] with port := [.command 0x0002#16 [], .drainOut 3] } = .next t :=
  ⟨⟨by decide, rfl, by intro k p h; simp at h, rfl⟩, by decide, by decide, rfl, ⟨_, rfl⟩, ⟨_, rfl⟩, ⟨_, rfl⟩⟩

/-- R103 over a drain: 376 bytes appended, 3 taken, and the counter is at the number of packets. -/
theorem test_counts_over_a_drain :
    let s : State := { writer .h264 [] with port := [.command 0x0002#16 [], .drainOut 3] }
    (appendedOver 2 s).length = 376 ∧ takenOver 2 s = 3 ∧ seen State.cc (runSteps 2 s) = some 2#4 := by decide +kernel

/-- The section builder's statements, at the longest configuration that a length byte and a word can hold. -/
theorem witness_asc_lengths :
    (List.replicate 255 1#8).length ≤ 255 ∧ (List.replicate 243 1#8).length ≤ 243 ∧
    244 ≤ (List.replicate 244 1#8).length := by decide +kernel

/-- PacketHasTheFieldsOfTheLayout and EmitPacketsCommitsTheWholeListOrFaults: sections of exactly 182 and of 183
bytes. -/
theorem witness_sections :
    (List.replicate 182 1#8).length ≤ 182 ∧
    (∃ sec ∈ [List.replicate 22 1#8, List.replicate 183 1#8], 182 < sec.length) ∧
    (∀ sec ∈ [List.replicate 22 1#8, List.replicate 182 1#8], sec.length ≤ 182) ∧
    Ready { exactly .h264 [] 376 with cfgValid := true } (188 * 2) :=
  ⟨by decide +kernel, by decide +kernel, by decide +kernel, ready_exact .h264 [] 376⟩

/-- EveryStepKeepsTheInvariant: a state that meets it, and its step. -/
theorem witness_invariant : State.reset.Inv ∧ ∃ t, step State.reset = .next t :=
  ⟨⟨Memory.wf_nil, by decide, by decide, by decide, by decide, by decide, by decide⟩, _, rfl⟩

/-- InstancesShareNothing. -/
theorem witness_instances :
    ∃ sys', (System.stepInstance { instances := [writer .h264 [], withCommand State.reset 0x0004#16 []] } 1) = some sys' :=
  ⟨_, rfl⟩

end Sys2Proof.Tests
end

/-! # The family of 10_state.md: the step interaction by interaction, STATUS, and the invariant of the block's state -/

namespace Sys2Proof.Machine

/-! ## The step, by the interaction at the port's head

`step_command` has the same for a command transaction. -/

section
variable {s : State} {rest : List HostEvent}

theorem step_idle (hp : s.port = []) : step s = .next s := by
  simp [step, State.serve, hp]

theorem step_commandDuringReset {w : CmdWord} {data : Bytes} (hp : s.port = .commandDuringReset w data :: rest) :
    step s = s.serveCommandDuringReset w data := by
  simp [step, State.serve, hp]

theorem step_reset (hp : s.port = .reset :: rest) : step s = .next s.serveReset := by
  simp [step, State.serve, hp]

theorem step_readStatus (hp : s.port = .readStatus :: rest) : step s = .next s.serveReadStatus := by
  simp [step, State.serve, hp]

theorem step_clearOut (hp : s.port = .clearOut :: rest) : step s = .next s.serveClearOut := by
  simp [step, State.serve, hp]

theorem step_drainOut {n : Nat} (hp : s.port = .drainOut n :: rest) : step s = .next (s.serveDrainOut n) := by
  simp [step, State.serve, hp]

theorem step_readOutSize (hp : s.port = .readOutSize :: rest) : step s = .next s.serveReadOutSize := by
  simp [step, State.serve, hp]

/-- Completing an interaction leaves the ones behind it pending, and touches nothing else (R59, R240). -/
theorem State.complete_of_port {e : HostEvent} (hp : s.port = e :: rest) : s.complete = { s with port := rest } := by
  simp [State.complete, hp]

end

/-! ## Totality on the transactions that R74 allows -/

theorem State.serveCommand_next_of_fits (s : State) {w : CmdWord} {data : Bytes} (h : dataFits w data = true) :
    ∃ t, s.serveCommand w data = .next t := by
  obtain ⟨-, ht⟩ | ⟨hbad, -⟩ := s.serveCommand_total w data
  · exact ht
  · rw [h] at hbad; cases hbad

/-- Whichever outcome the platform picks (U8), a command that fits and during which RESET arrives is served. -/
theorem State.serveCommandDuringReset_next_of_fits (s : State) {w : CmdWord} {data : Bytes}
    (h : dataFits w data = true) : ∃ t, s.serveCommandDuringReset w data = .next t := by
  unfold State.serveCommandDuringReset
  split
  · obtain ⟨u, hu⟩ := ({ s with choices := s.choices + 1 } : State).serveCommand_next_of_fits h
    exact ⟨s.resetAfter u, by rw [hu]⟩
  · exact ⟨_, rfl⟩

/-- A well-formed interaction at the port's head is served (R40). -/
theorem step_next_of_wf {s : State} {e : HostEvent} {rest : List HostEvent} (hp : s.port = e :: rest)
    (hwf : e.wf = true) : ∃ t, step s = .next t := by
  cases e with
  | command w data => rw [step_command hp]; exact s.serveCommand_next_of_fits hwf
  | commandDuringReset w data => rw [step_commandDuringReset hp]; exact s.serveCommandDuringReset_next_of_fits hwf
  | reset => exact ⟨_, step_reset hp⟩
  | readStatus => exact ⟨_, step_readStatus hp⟩
  | clearOut => exact ⟨_, step_clearOut hp⟩
  | drainOut n => exact ⟨_, step_drainOut hp⟩
  | readOutSize => exact ⟨_, step_readOutSize hp⟩

/-! ## STATUS -/

/-- STATUS is the packing of its four fields, `CAUSE` at bit 4, `CODEC` at bit 2 and `CFG_VALID` at bit 1 (R29). -/
theorem State.toNat_status (s : State) :
    s.status.toNat =
      s.cause.code.toNat * 16 + s.statusCodec.toNat * 4 + s.cfgValid.toNat * 2 + s.fault.toNat := by
  simp only [State.status, toNat_packed, BitVec.toNat_ofBool]
  omega

theorem toNat_codecCode (c : Codec) : c.code.toNat = if c = .aac then 1 else 0 := by
  cases c <;> rfl

theorem State.toNat_statusCodec (s : State) :
    s.statusCodec.toNat = if s.cfgValid then (if s.codec = .aac then 1 else 0) else 0 := by
  unfold State.statusCodec
  split
  · exact toNat_codecCode s.codec
  · rfl

@[simp] theorem State.applyReset_status (s : State) : s.applyReset.status = 0x00#8 := by
  simp [State.status, State.statusCodec, Cause.code]

/-! ## The block's own state elements -/

/-- The seven state elements of the block (R22), without the host's side. -/
def State.block (s : State) : BitVec 4 × Bool × Codec × BitVec 8 × Memory × Bool × Cause :=
  (s.cc, s.cfgValid, s.codec, s.ascLen, s.ascBuf, s.fault, s.cause)

theorem State.block_eq_iff {s t : State} :
    t.block = s.block ↔ t.cc = s.cc ∧ t.cfgValid = s.cfgValid ∧ t.codec = s.codec ∧ t.ascLen = s.ascLen ∧
      t.ascBuf = s.ascBuf ∧ t.fault = s.fault ∧ t.cause = s.cause := by
  simp only [State.block, Prod.mk.injEq]

@[simp] theorem State.block_complete (s : State) : s.complete.block = s.block := rfl
@[simp] theorem State.block_serveReadStatus (s : State) : s.serveReadStatus.block = s.block := rfl
@[simp] theorem State.block_serveClearOut (s : State) : s.serveClearOut.block = s.block := rfl
@[simp] theorem State.block_serveDrainOut (s : State) (n : Nat) : (s.serveDrainOut n).block = s.block := rfl
@[simp] theorem State.block_serveReadOutSize (s : State) : s.serveReadOutSize.block = s.block := rfl

@[simp] theorem State.block_holdForSink (s : State) : s.holdForSink.block = s.block := by
  simp [State.block_eq_iff]

/-! ## What keeps the invariant -/

/-- The invariant speaks of the block alone, so whatever changes only the host's side keeps it. -/
theorem State.Inv.of_block_eq {s t : State} (hs : s.Inv) (h : t.block = s.block) : t.Inv := by
  obtain ⟨hcc, hcfg, hcodec, hlen, hbuf, hfault, hcause⟩ := State.block_eq_iff.mp h
  obtain ⟨h1, h2, h3, h4, h5, h6, h7⟩ := hs
  constructor <;> simpa only [hcc, hcfg, hcodec, hlen, hbuf, hfault, hcause]

theorem State.Inv.complete {s : State} (hs : s.Inv) : s.complete.Inv := hs.of_block_eq s.block_complete

/-- Recording a cause keeps the invariant, where the cause fits the configuration that is left, with `CFG_VALID`
at `v` (R201, R203, R204). -/
theorem State.Inv.recordFault {s : State} (hs : s.Inv) {v : Bool} {code : Cause} (hne : code ≠ .none)
    (hnot : code = .notConfigured → v = false) (hbad : code = .unsupportedCodec → v = false)
    (hlarge : code = .sectionTooLarge → v = true ∧ s.codec = .aac ∧ 140 < s.ascLen.toNat) :
    ({ s with cfgValid := v, fault := true, cause := code } : State).Inv where
  ascBuf_wf := hs.ascBuf_wf
  fault_iff := iff_of_true rfl hne
  h264_empty := hs.h264_empty
  unconfigured := fun _ hf => nomatch hf
  notConfigured := hnot
  unsupportedCodec := hbad
  sectionTooLarge := hlarge

theorem State.Inv.doIllegal {s : State} (hs : s.Inv) : s.doIllegal.Inv := by
  cases hf : s.fault with
  | true => rw [State.doIllegal_of_fault hf]; exact hs.complete
  | false =>
    rw [State.doIllegal_of_clear hf]
    exact (hs.recordFault (code := .illegalCommand) nofun nofun nofun nofun).complete

theorem State.Inv.doBadCodec {s : State} (hs : s.Inv) : s.doBadCodec.Inv := by
  cases hf : s.fault with
  | true => rw [State.doBadCodec_of_fault hf]; exact hs.complete
  | false =>
    rw [State.doBadCodec_of_clear hf]
    exact (hs.recordFault (code := .unsupportedCodec) nofun nofun (fun _ => rfl) nofun).complete

/-- What INIT stores keeps ASC_BUF in canonical form, for every data vector of at most 255 bytes (R50, R171). -/
theorem wf_storedAscBuf {m : Memory} (hm : m.wf) (c : Codec) {data : Bytes} (hd : data.length ≤ ascLenMax) :
    (storedAscBuf c data m).wf := by
  cases c with
  | h264 => exact hm
  | aac => exact Memory.wf_writeBytes hm (by omega)

/-- A constructed writer meets the invariant, whatever the fault state was before (R171). -/
theorem State.Inv.doInit {s : State} (hs : s.Inv) (c : Codec) {data : Bytes} (hd : data.length ≤ ascLenMax) :
    (s.doInit c data).Inv where
  ascBuf_wf := wf_storedAscBuf hs.ascBuf_wf c hd
  fault_iff := by simp
  h264_empty := by rintro rfl; rfl
  unconfigured := nofun
  notConfigured := nofun
  unsupportedCodec := nofun
  sectionTooLarge := nofun

/-- A configured writer may count any number of packets. -/
theorem State.Inv.commitPackets {s : State} (hs : s.Inv) (hv : s.cfgValid = true) (secs : List Bytes) :
    (s.commitPackets secs).Inv where
  ascBuf_wf := hs.ascBuf_wf
  fault_iff := hs.fault_iff
  h264_empty := hs.h264_empty
  unconfigured := fun h => absurd (hv.symm.trans h) (by decide)
  notConfigured := hs.notConfigured
  unsupportedCodec := hs.unsupportedCodec
  sectionTooLarge := hs.sectionTooLarge

theorem State.Inv.doEmit {s : State} (hs : s.Inv) (modes : List Mode) : (s.doEmit modes).Inv := by
  obtain ⟨-, h⟩ | ⟨-, hv, h⟩ | ⟨-, hv, ⟨haac, hlong, -⟩, h⟩ | ⟨-, hv, -, -, h⟩ | ⟨-, -, -, -, h⟩ :=
    s.doEmit_outcomes modes <;> rw [h]
  · exact hs.complete
  · exact (hs.recordFault (code := .notConfigured) nofun (fun _ => hv) nofun nofun).complete
  · exact (hs.recordFault (code := .sectionTooLarge) nofun nofun nofun (fun _ => ⟨hv, haac, hlong⟩)).complete
  · exact hs.commitPackets hv _
  · exact hs.of_block_eq s.block_holdForSink

/-- A reset block meets the invariant, whatever was before and whatever bytes ASC_BUF is left with (R230, U7). -/
theorem State.inv_applyReset (s : State) : s.applyReset.Inv where
  ascBuf_wf := Memory.wf_afterReset s.choices
  fault_iff := by simp
  h264_empty := fun _ => rfl
  unconfigured := fun _ _ => ⟨rfl, rfl, rfl⟩
  notConfigured := nofun
  unsupportedCodec := nofun
  sectionTooLarge := nofun

theorem State.Inv.resetAfter {t : State} (ht : t.Inv) (s : State) : (s.resetAfter t).Inv := by
  unfold State.resetAfter
  split
  · exact t.inv_applyReset
  · exact ht

theorem State.Inv.serveCommand {s t : State} {w : CmdWord} {data : Bytes} (hs : s.Inv)
    (h : s.serveCommand w data = .next t) : t.Inv := by
  obtain ⟨-, rfl⟩ | ⟨-, rfl⟩ | ⟨c, n, -, hlen, rfl⟩ | ⟨modes, -, -, rfl⟩ := State.serveCommand_cases h
  · exact hs.doIllegal
  · exact hs.doBadCodec
  · have hn : n.toNat < ascLenMax + 1 := n.isLt
    exact hs.doInit c (by omega)
  · exact hs.doEmit modes

theorem State.Inv.step {s t : State} (hs : s.Inv) (h : step s = .next t) : t.Inv := by
  obtain ⟨-, rfl⟩ | ⟨w, data, _, -, hc⟩ | ⟨w, data, _, u, -, hu, rfl⟩ | ⟨_, _, _, -, rfl⟩ | ⟨_, -, rfl⟩ |
    ⟨_, -, rfl⟩ | ⟨_, -, rfl⟩ | ⟨n, _, -, rfl⟩ | ⟨_, -, rfl⟩ := step_cases h
  · exact hs
  · exact hs.serveCommand hc
  · have hu' : u.Inv := (hs.of_block_eq (t := { s with choices := s.choices + 1 }) rfl).serveCommand hu
    exact hu'.resetAfter s
  · exact (State.inv_applyReset _).complete
  · exact s.inv_applyReset.complete
  · exact hs.of_block_eq s.block_serveReadStatus
  · exact hs.of_block_eq s.block_serveClearOut
  · exact hs.of_block_eq (s.block_serveDrainOut n)
  · exact hs.of_block_eq s.block_serveReadOutSize

/-- The base case of the invariant: at power-on ASC_BUF lists no byte, and no cause is recorded (R22). -/
theorem State.inv_reset : State.reset.Inv where
  ascBuf_wf := Memory.wf_nil
  fault_iff := by decide
  h264_empty := fun _ => rfl
  unconfigured := fun _ _ => ⟨rfl, rfl, rfl⟩
  notConfigured := nofun
  unsupportedCodec := nofun
  sectionTooLarge := nofun

/-! ## The obligations of 10_state.md -/

/-- Settles O50, by the cases of a step: each operation of the block keeps the invariant, and the host's own
operations leave the block alone. -/
theorem everyStepKeepsTheInvariant : Obligations.EveryStepKeepsTheInvariant :=
  fun _ _ hs h => hs.step h

/-- Settles O9, by the cases of the port: an idle block steps to itself, and a well-formed head is served. -/
theorem wellFormedTransactionsNeverStopTheMachine : Obligations.WellFormedTransactionsNeverStopTheMachine := by
  intro s hwf
  cases hp : s.port with
  | nil => exact ⟨s, step_idle hp⟩
  | cons e rest => exact step_next_of_wf hp (hwf e (by rw [hp]; rfl))

/-- Settles O29, by the packing of STATUS's fields and the service of a read. -/
theorem statusPacksTheFlags : Obligations.StatusPacksTheFlags := by
  refine ⟨fun s => ?_, State.applyReset_status, fun s rest hp => ?_⟩
  · simp only [State.toNat_status, State.toNat_statusCodec, Bool.toNat, Bool.cond_eq_ite]
    cases s.cause <;> rfl
  · rw [step_readStatus hp, State.serveReadStatus, State.complete_of_port hp]

/-- Settles O30: each value is the one that the reset state is written with. -/
theorem resetStateHasTheStatedValues : Obligations.ResetStateHasTheStatedValues :=
  ⟨rfl, rfl, rfl, rfl, rfl, rfl, rfl⟩

/-- Settles O33, by the service of each of the host's three operations; a drain splits OUT at its count. -/
theorem hostOperationsOnOutChangeNoBlockState : Obligations.HostOperationsOnOutChangeNoBlockState := by
  refine fun s rest => ⟨fun hp => ?_, fun n hp => ?_, fun hp => ?_⟩
  · rw [step_clearOut hp, State.serveClearOut, State.complete_of_port hp]
  · refine ⟨_, s.out.take n, s.out.drop n, step_drainOut hp, (List.take_append_drop n s.out).symm,
      List.length_take, ?_⟩
    rw [State.serveDrainOut, State.complete_of_port hp]
    rfl
  · rw [step_readOutSize hp, State.serveReadOutSize, State.complete_of_port hp]

/-- Settles O49. -/
theorem resetStateMeetsTheInvariant : Obligations.ResetStateMeetsTheInvariant := State.inv_reset

end Sys2Proof.Machine

/-! # The family of 20_memory.md: the store that emission reads, and whole packets in OUT, appended or held for room -/

namespace Sys2Proof.Machine

open Sys2Proof.Claims

/-! ## The port -/

@[simp] theorem State.doIllegal_port (s : State) : s.doIllegal.port = s.port.tail := by
  simp [State.doIllegal]

@[simp] theorem State.doBadCodec_port (s : State) : s.doBadCodec.port = s.port.tail := by
  unfold State.doBadCodec; split <;> simp

@[simp] theorem State.resetAfter_port (s t : State) : (s.resetAfter t).port = t.port := by
  unfold State.resetAfter; split <;> rfl

/-- An emission command is over, or held at the head of the port (R58). -/
theorem State.doEmit_port (s : State) (modes : List Mode) :
    (s.doEmit modes).port = s.port ∨ (s.doEmit modes).port = s.port.tail := by
  obtain ⟨-, h⟩ | ⟨-, -, h⟩ | ⟨-, -, -, h⟩ | ⟨-, -, -, -, h⟩ | ⟨-, -, -, -, h⟩ := s.doEmit_outcomes modes <;> rw [h]
  · exact .inr rfl
  · exact .inr rfl
  · exact .inr rfl
  · exact .inr rfl
  · exact .inl s.holdForSink_port

theorem State.serveCommand_port {s t : State} {w : CmdWord} {data : Bytes} (h : s.serveCommand w data = .next t) :
    t.port = s.port ∨ t.port = s.port.tail := by
  obtain ⟨-, rfl⟩ | ⟨-, rfl⟩ | ⟨c, n, -, -, rfl⟩ | ⟨modes, -, -, rfl⟩ := State.serveCommand_cases h
  · exact .inr s.doIllegal_port
  · exact .inr s.doBadCodec_port
  · exact .inr rfl
  · exact s.doEmit_port modes

/-! ## The stored configuration -/

/-- What INIT stored: CODEC, ASC_LEN and ASC_BUF (R24, R25). -/
def State.store (s : State) : Codec × BitVec 8 × Memory := (s.codec, s.ascLen, s.ascBuf)

theorem State.store_eq_iff {s t : State} :
    t.store = s.store ↔ t.codec = s.codec ∧ t.ascLen = s.ascLen ∧ t.ascBuf = s.ascBuf := by
  simp only [State.store, Prod.mk.injEq]

theorem State.store_eq_of_block_eq {s t : State} (h : t.block = s.block) : t.store = s.store := by
  obtain ⟨-, -, hcodec, hlen, hbuf, -, -⟩ := State.block_eq_iff.mp h
  exact State.store_eq_iff.mpr ⟨hcodec, hlen, hbuf⟩

/-- The configuration is the same where CFG_VALID and the store are. -/
theorem State.SameConfig.of_store_eq {s t : State} (hcfg : t.cfgValid = s.cfgValid) (h : t.store = s.store) :
    s.SameConfig t := by
  obtain ⟨hcodec, hlen, hbuf⟩ := State.store_eq_iff.mp h
  exact ⟨hcfg, hcodec, hlen, fun a => by rw [hbuf]⟩

@[simp] theorem State.store_doIllegal (s : State) : s.doIllegal.store = s.store := by
  simp [State.store, State.doIllegal]

@[simp] theorem State.store_doBadCodec (s : State) : s.doBadCodec.store = s.store := by
  unfold State.doBadCodec; split <;> simp [State.store]

/-- What completing, recording a fault, committing and holding leave alone, an emission command leaves alone. -/
theorem State.doEmit_keeps {α : Type} (f : State → α) {s : State} (modes : List Mode)
    (hcomplete : ∀ r : State, f r.complete = f r)
    (hfault : ∀ code, f { s with fault := true, cause := code } = f s)
    (hcommit : ∀ secs, f (s.commitPackets secs) = f s) (hhold : f s.holdForSink = f s) :
    f (s.doEmit modes) = f s := by
  obtain ⟨-, h⟩ | ⟨-, -, h⟩ | ⟨-, -, -, h⟩ | ⟨-, -, -, -, h⟩ | ⟨-, -, -, -, h⟩ := s.doEmit_outcomes modes <;> rw [h]
  · exact hcomplete s
  · exact (hcomplete _).trans (hfault _)
  · exact (hcomplete _).trans (hfault _)
  · exact hcommit _
  · exact hhold

@[simp] theorem State.store_doEmit (s : State) (modes : List Mode) : (s.doEmit modes).store = s.store :=
  State.doEmit_keeps State.store modes (fun _ => rfl) (fun _ => rfl) (fun _ => rfl)
    (State.store_eq_of_block_eq s.block_holdForSink)

@[simp] theorem State.doEmit_cfgValid (s : State) (modes : List Mode) : (s.doEmit modes).cfgValid = s.cfgValid :=
  State.doEmit_keeps State.cfgValid modes (fun _ => rfl) (fun _ => rfl) (fun _ => rfl) s.holdForSink_cfgValid

@[simp] theorem State.doEmit_choices (s : State) (modes : List Mode) : (s.doEmit modes).choices = s.choices :=
  State.doEmit_keeps State.choices modes (fun _ => rfl) (fun _ => rfl) (fun _ => rfl) s.holdForSink_choices

theorem State.sameConfig_doEmit (s : State) (modes : List Mode) : s.SameConfig (s.doEmit modes) :=
  .of_store_eq (s.doEmit_cfgValid modes) (s.store_doEmit modes)

/-- No transaction but a well-formed INIT writes the store (R57). -/
theorem State.store_serveCommand {s t : State} {w : CmdWord} {data : Bytes} (hw : isInitWord w = false)
    (h : s.serveCommand w data = .next t) : t.store = s.store := by
  obtain ⟨-, rfl⟩ | ⟨-, rfl⟩ | ⟨c, n, hinit, -, -⟩ | ⟨modes, -, -, rfl⟩ := State.serveCommand_cases h
  · exact s.store_doIllegal
  · exact s.store_doBadCodec
  · simp [isInitWord, hinit] at hw
  · exact s.store_doEmit modes

/-- A step that serves neither a well-formed INIT nor a RESET leaves the store alone (R57). -/
theorem store_step {s t : State} {e : HostEvent} {rest : List HostEvent} (hp : s.port = e :: rest)
    (he : e.restarts = false) (h : step s = .next t) : t.store = s.store := by
  cases e with
  | command w data => exact State.store_serveCommand he (step_command hp ▸ h)
  | commandDuringReset w data => cases he
  | reset => cases he
  | readStatus => cases (step_readStatus hp).symm.trans h; rfl
  | clearOut => cases (step_clearOut hp).symm.trans h; rfl
  | drainOut n => cases (step_drainOut hp).symm.trans h; rfl
  | readOutSize => cases (step_readOutSize hp).symm.trans h; rfl

/-! ## The emission commands as `DoEmit` -/

/-- The modes an emission command emits, one for each packet (R172 to R174). -/
def modesOf : Instr → List Mode
  | .writeClear => [.clear]
  | .writeClearLead => [.clearLeadFirst, .clearLeadSecond]
  | .writeEncrypted => [.encrypted]
  | .init _ _ => []

section
variable {i : Instr}

theorem exec_of_isEmission (hi : isEmission i) (s : State) : exec i s = .next (s.doEmit (modesOf i)) := by
  cases i with
  | writeClear => rfl
  | writeClearLead => rfl
  | writeEncrypted => rfl
  | init c data => exact hi.elim

theorem length_modesOf (hi : isEmission i) : (modesOf i).length = packetsOf i := by
  cases i with
  | writeClear => rfl
  | writeClearLead => rfl
  | writeEncrypted => rfl
  | init c data => exact hi.elim

/-- WRITE_CLEAR announces no encrypted content (R134, R172). -/
theorem ne_writeClear_of_encrypted_mode (h : ∃ m ∈ modesOf i, m.isEncrypted = true) : i ≠ .writeClear := by
  rintro rfl
  obtain ⟨m, hm, henc⟩ := h
  rw [List.mem_singleton.mp hm] at henc
  cases henc

theorem step_emission {s : State} {w : CmdWord} {data : Bytes} {rest : List HostEvent}
    (hp : s.port = .command w data :: rest) (hd : decode w data = .ok i) (hi : isEmission i) :
    step s = .next (s.doEmit (modesOf i)) := by
  rw [step_command hp, State.serveCommand, hd]
  exact exec_of_isEmission hi s

/-- A WRITE_* word calls for one packet or for two. -/
theorem length_emissionModes {cmd : Cmd} {modes : List Mode} (h : emissionModes cmd = some modes) :
    modes.length = 1 ∨ modes.length = 2 := by
  cases cmd with
  | writeClear => cases h; exact .inl rfl
  | writeClearLead => cases h; exact .inr rfl
  | writeEncrypted => cases h; exact .inl rfl
  | init c n => cases h
  | badCodec => cases h
  | illegal => cases h

end

/-! ## What a step does to OUT -/

/-- An emission command leaves OUT and the host's reply alone, or appends a packet for each mode, or is held while the
host drains OUT (R53, R58). -/
theorem State.doEmit_out (s : State) (modes : List Mode) :
    ((s.doEmit modes).reply = s.reply ∧
      ∃ v, (s.doEmit modes).out = s.out ++ v ∧ (v.length = 0 ∨ v.length = 188 * modes.length)) ∨
    ∃ n rest, s.sinkGrants = .drain n :: rest ∧ s.doEmit modes = { s.drainOut n with sinkGrants := rest } := by
  obtain ⟨-, h⟩ | ⟨-, -, h⟩ | ⟨-, -, -, h⟩ | ⟨-, -, hfit, -, h⟩ | ⟨-, -, -, -, h⟩ := s.doEmit_outcomes modes <;> rw [h]
  · exact .inl ⟨rfl, [], by simp⟩
  · exact .inl ⟨rfl, [], by simp⟩
  · exact .inl ⟨rfl, [], by simp⟩
  · exact .inl ⟨rfl, framePackets (s.sections modes) s.cc, rfl, .inr (by simp [length_framePackets s.cc hfit])⟩
  · obtain ⟨-, hs⟩ | ⟨n, rest, -, hs⟩ | ⟨n, rest, hg, hs⟩ := s.holdForSink_cases <;> rw [hs]
    · exact .inl ⟨rfl, [], by simp⟩
    · exact .inl ⟨rfl, [], by simp⟩
    · exact .inr ⟨n, rest, hg, rfl⟩

/-- What the block's own service does to OUT: the host drains it while the command stays held, or none, one or two
packets are appended (R59, R157). -/
def State.OutStep (s t : State) : Prop :=
  (∃ n rest, s.sinkGrants = .drain n :: rest ∧ t.port = s.port ∧ t.sinkGrants = rest ∧ t.out = s.out.drop n) ∨
  ∃ v, t.out = s.out ++ v ∧ (v.length = 0 ∨ v.length = 188 ∨ v.length = 376)

theorem State.OutStep.of_out_eq {s t : State} (h : t.out = s.out) : s.OutStep t :=
  .inr ⟨[], by rw [h, List.append_nil], .inl rfl⟩

@[simp] theorem State.doIllegal_out (s : State) : s.doIllegal.out = s.out := by
  simp [State.doIllegal]

@[simp] theorem State.doBadCodec_out (s : State) : s.doBadCodec.out = s.out := by
  unfold State.doBadCodec; split <;> simp

theorem State.outStep_doEmit (s : State) {modes : List Mode} (hm : modes.length = 1 ∨ modes.length = 2) :
    s.OutStep (s.doEmit modes) := by
  obtain ⟨-, v, hv, hlen⟩ | ⟨n, rest, hg, h⟩ := s.doEmit_out modes
  · exact .inr ⟨v, hv, by omega⟩
  · rw [h]; exact .inl ⟨n, rest, hg, rfl, rfl, rfl⟩

theorem State.outStep_serveCommand {s t : State} {w : CmdWord} {data : Bytes} (h : s.serveCommand w data = .next t) :
    s.OutStep t := by
  obtain ⟨-, rfl⟩ | ⟨-, rfl⟩ | ⟨c, n, -, -, rfl⟩ | ⟨modes, hm, -, rfl⟩ := State.serveCommand_cases h
  · exact .of_out_eq s.doIllegal_out
  · exact .of_out_eq s.doBadCodec_out
  · exact .of_out_eq rfl
  · exact s.outStep_doEmit (length_emissionModes hm)

@[simp] theorem State.resetAfter_out (s t : State) : (s.resetAfter t).out = t.out := by
  unfold State.resetAfter; split <;> rfl

@[simp] theorem State.resetAfter_sinkGrants (s t : State) : (s.resetAfter t).sinkGrants = t.sinkGrants := by
  unfold State.resetAfter; split <;> rfl

/-- A RESET that follows a command does not touch what the command did to OUT (R230). -/
theorem State.OutStep.resetAfter {s t : State} (h : s.OutStep t) (r : State) : s.OutStep (r.resetAfter t) := by
  simpa only [State.OutStep, State.resetAfter_out, State.resetAfter_port, State.resetAfter_sinkGrants] using h

/-! ## Room in the sink -/

/-- The command has packets to append: no fault, a writer, and sections that fit in a packet each (R154, R201). -/
structure State.Emits (s : State) (modes : List Mode) : Prop where
  fault : s.fault = false
  cfgValid : s.cfgValid = true
  fits : ∀ sec ∈ s.sections modes, sec.length ≤ 182

section
variable {s t : State} {modes : List Mode}

theorem State.sections_of_block_eq (h : t.block = s.block) : t.sections modes = s.sections modes := by
  obtain ⟨-, -, hcodec, hlen, hbuf, -, -⟩ := State.block_eq_iff.mp h
  rw [State.sections, State.sections, hcodec, State.asc_congr hlen hbuf]

theorem State.Emits.of_block_eq (hs : s.Emits modes) (h : t.block = s.block) : t.Emits modes := by
  obtain ⟨-, hcfg, -, -, -, hfault, -⟩ := State.block_eq_iff.mp h
  exact ⟨hfault.trans hs.fault, hcfg.trans hs.cfgValid, State.sections_of_block_eq (modes := modes) h ▸ hs.fits⟩

/-- With packets to append, the room in the sink alone decides whether they are appended or the command is held. -/
theorem State.Emits.doEmit_eq (hs : s.Emits modes) :
    s.doEmit modes =
      if s.sinkAccepts (188 * modes.length) then s.commitPackets (s.sections modes) else s.holdForSink := by
  obtain ⟨hf, -⟩ | ⟨-, hc, -⟩ | ⟨-, -, hlarge, -⟩ | ⟨-, -, -, hroom, h⟩ | ⟨-, -, -, hroom, h⟩ := s.doEmit_outcomes modes
  · exact absurd (hs.fault.symm.trans hf) (by decide)
  · exact absurd (hs.cfgValid.symm.trans hc) (by decide)
  · obtain ⟨sec, hmem, hlong⟩ := (s.exists_large_section modes).mpr hlarge
    exact absurd (hs.fits sec hmem) (by omega)
  · rw [h, if_pos hroom]
  · rw [h, if_neg (by rw [hroom]; decide)]

theorem State.doEmit_of_fault (hf : s.fault = true) : s.doEmit modes = s.complete := by
  rw [State.doEmit, if_pos hf]

theorem State.doEmit_of_unconfigured (hf : s.fault = false) (hc : s.cfgValid = false) :
    s.doEmit modes = ({ s with fault := true, cause := .notConfigured } : State).complete := by
  simp [State.doEmit, hf, hc, State.raiseFault_of_clear]

theorem State.doEmit_of_large (hf : s.fault = false) (hc : s.cfgValid = true)
    (hlarge : ¬ ∀ sec ∈ s.sections modes, sec.length ≤ 182) :
    s.doEmit modes = ({ s with fault := true, cause := .sectionTooLarge } : State).complete := by
  obtain ⟨-, h⟩ | ⟨hfit, -⟩ | ⟨hfit, -⟩ := s.emitPackets_cases (s.sections modes)
  · simp [State.doEmit, hf, hc, h, State.raiseFault_of_clear]
  · exact absurd hfit hlarge
  · exact absurd hfit hlarge

/-- Without packets to append, the command is over at once and at most records a fault, whatever the sink can hold. -/
theorem State.doEmit_of_not_emits (hs : ¬ s.Emits modes) :
    ∃ f code, ∀ cap, ({ s with outCapacity := cap } : State).doEmit modes =
      ({ s with outCapacity := cap, fault := f, cause := code } : State).complete := by
  obtain ⟨hf, -⟩ | ⟨hf, hc, -⟩ | ⟨hf, hc, -⟩ := s.doEmit_cases modes
  · exact ⟨s.fault, s.cause, fun _ => State.doEmit_of_fault hf⟩
  · exact ⟨true, .notConfigured, fun _ => State.doEmit_of_unconfigured hf hc⟩
  · have hlarge : ¬ ∀ sec ∈ s.sections modes, sec.length ≤ 182 := fun hfit => hs ⟨hf, hc, hfit⟩
    exact ⟨true, .sectionTooLarge, fun _ => State.doEmit_of_large hf hc hlarge⟩

theorem State.faulted_complete (s : State) (code : Cause) :
    s.Faulted ({ s with fault := true, cause := code } : State).complete code :=
  ⟨rfl, rfl, rfl, ⟨rfl, rfl, rfl, fun _ => rfl⟩, rfl, rfl, ⟨rfl, rfl, rfl, rfl⟩⟩

end

/-! ## A held command -/

/-- `t` is `s` after the grants `used` arrived, one a step, while the command at the port's head was held. `c` is what
OUT can hold in `s`. -/
structure State.HeldFor (s : State) (c : Nat) (used : List SinkGrant) (t : State) : Prop where
  run : runSteps used.length s = .next t
  grants : s.sinkGrants = used ++ t.sinkGrants
  outCapacity : t.outCapacity = some (used.foldl afterGrant (c, s.out)).1
  out : t.out = (used.foldl afterGrant (c, s.out)).2
  block : t.block = s.block
  port : t.port = s.port

section
variable {s t : State} {c : Nat} {g : SinkGrant} {rest used : List SinkGrant}

theorem State.holdForSink_of_capacity {n : Nat} (hg : s.sinkGrants = .capacity n :: rest)
    (hc : s.outCapacity = some c) :
    s.holdForSink = { s with outCapacity := some (c + n), sinkGrants := rest } := by
  simp [State.holdForSink, hg, hc]

theorem State.holdForSink_of_drain {n : Nat} (hg : s.sinkGrants = .drain n :: rest) :
    s.holdForSink = { s.drainOut n with sinkGrants := rest } := by
  simp [State.holdForSink, hg]

/-- One held step takes one grant: the sink's capacity and OUT become what the grant makes of them (R58). -/
theorem State.holdForSink_of_grant (hg : s.sinkGrants = g :: rest) (hc : s.outCapacity = some c) :
    s.holdForSink.sinkGrants = rest ∧ s.holdForSink.outCapacity = some (afterGrant (c, s.out) g).1 ∧
      s.holdForSink.out = (afterGrant (c, s.out) g).2 := by
  cases g with
  | capacity n => rw [State.holdForSink_of_capacity hg hc]; exact ⟨rfl, rfl, rfl⟩
  | drain n => rw [State.holdForSink_of_drain hg]; exact ⟨rfl, hc, rfl⟩

theorem State.HeldFor.nil (hc : s.outCapacity = some c) : s.HeldFor c [] s :=
  ⟨rfl, rfl, hc, rfl, rfl, rfl⟩

theorem State.HeldFor.cons (hstep : step s = .next s.holdForSink) (hg : s.sinkGrants = g :: rest)
    (hc : s.outCapacity = some c) (h : s.holdForSink.HeldFor (afterGrant (c, s.out) g).1 used t) :
    s.HeldFor c (g :: used) t := by
  obtain ⟨hrest, -, hout⟩ := State.holdForSink_of_grant hg hc
  refine ⟨(runSteps_succ_of_next _ hstep).trans h.run, ?_, ?_, ?_, h.block.trans s.block_holdForSink,
    h.port.trans s.holdForSink_port⟩
  · rw [hg, List.cons_append, ← hrest, h.grants]
  · rw [h.outCapacity, hout, List.foldl_cons]
  · rw [h.out, hout, List.foldl_cons]

theorem State.sinkAccepts_of_capacity {n : Nat} (hc : s.outCapacity = some c) (h : s.out.length + n ≤ c) :
    s.sinkAccepts n = true :=
  (s.sinkAccepts_iff n).mpr (.inr ⟨c, hc, h⟩)

theorem State.sinkAccepts_of_no_room {n : Nat} (hc : s.outCapacity = some c) (h : c < s.out.length + n) :
    s.sinkAccepts n = false := by
  simp [State.sinkAccepts, hc, h]

/-- A command with packets to append waits for the first of the grants after which the sink has the room, if such a
grant comes. By induction on the grants to come. -/
theorem State.Emits.heldFor_until_room {modes : List Mode} (hs : s.Emits modes) {e : HostEvent}
    {pending : List HostEvent} (hp : s.port = e :: pending)
    (hstep : ∀ r : State, r.port = e :: pending → step r = .next (r.doEmit modes))
    (hc : s.outCapacity = some c) (grants : List SinkGrant) {more : List SinkGrant}
    (hg : s.sinkGrants = grants ++ more)
    (hroom : (grants.foldl afterGrant (c, s.out)).2.length + 188 * modes.length ≤
      (grants.foldl afterGrant (c, s.out)).1) :
    ∃ used left t, grants = used ++ left ∧ s.HeldFor c used t ∧ t.sinkAccepts (188 * modes.length) = true := by
  induction grants generalizing s c with
  | nil => exact ⟨[], [], s, rfl, .nil hc, State.sinkAccepts_of_capacity hc hroom⟩
  | cons g grants ih =>
    cases hnow : s.sinkAccepts (188 * modes.length) with
    | true => exact ⟨[], g :: grants, s, rfl, .nil hc, hnow⟩
    | false =>
      have hhold : step s = .next s.holdForSink := by rw [hstep s hp, hs.doEmit_eq, hnow]; rfl
      obtain ⟨hrest, hcap, hout⟩ := State.holdForSink_of_grant hg hc
      obtain ⟨used, left, t, rfl, hheld, haccepts⟩ :=
        ih (hs.of_block_eq s.block_holdForSink) (s.holdForSink_port.trans hp) hcap hrest (by rw [hout]; exact hroom)
      exact ⟨g :: used, left, t, rfl, .cons hhold hg hc hheld, haccepts⟩

theorem runSteps_succ_last {n : Nat} {u : State} (hrun : runSteps n s = .next t) (h : step t = .next u) :
    runSteps (n + 1) s = .next u := by
  induction n generalizing s with
  | zero => cases hrun; rw [runSteps_succ_of_next 0 h]; rfl
  | succ n ih =>
    obtain ⟨r, hr, hrest⟩ := runSteps_succ hrun
    rw [runSteps_succ_of_next _ hr]
    exact ih hrest

end

/-! ## The obligations of 20_memory.md -/

/-- Settles O11, by the cases of a step: what is served leaves the port without its head, and what is held stays. -/
theorem interactionsAreServedInOrder : Obligations.InteractionsAreServedInOrder := by
  intro s t h
  obtain ⟨-, rfl⟩ | ⟨w, data, _, -, hc⟩ | ⟨w, data, _, u, -, hu, rfl⟩ | ⟨_, _, _, -, rfl⟩ | ⟨_, -, rfl⟩ |
    ⟨_, -, rfl⟩ | ⟨_, -, rfl⟩ | ⟨n, _, -, rfl⟩ | ⟨_, -, rfl⟩ := step_cases h
  · exact .inl rfl
  · exact State.serveCommand_port hc
  · rw [State.resetAfter_port]; exact (State.serveCommand_port hu :)
  · exact .inr rfl
  · exact .inr rfl
  · exact .inr rfl
  · exact .inr rfl
  · exact .inr rfl
  · exact .inr rfl

/-- Settles O28: what a step that restarts nothing leaves is the same store, and so the same bytes of ASC_BUF. -/
theorem storedConfigurationIsImmutable : Obligations.StoredConfigurationIsImmutable := by
  intro s t e rest hp he h
  obtain ⟨hcodec, hlen, hbuf⟩ := State.store_eq_iff.mp (store_step hp he h)
  exact ⟨hcodec, hlen, fun a => by rw [hbuf]⟩

/-- Settles O51, by the cases of a step: the host's clear and drain take bytes, and of the rest only a command's
service touches OUT. -/
theorem outGrowsByWholePackets : Obligations.OutGrowsByWholePackets := by
  intro s t h
  obtain ⟨-, rfl⟩ | ⟨w, data, _, -, hc⟩ | ⟨w, data, _, u, -, hu, rfl⟩ | ⟨_, _, _, -, rfl⟩ | ⟨_, -, rfl⟩ |
    ⟨_, -, rfl⟩ | ⟨rest, hp, rfl⟩ | ⟨n, rest, hp, rfl⟩ | ⟨_, -, rfl⟩ := step_cases h
  · exact .inr (.inr (State.OutStep.of_out_eq rfl))
  · exact .inr (.inr (State.outStep_serveCommand hc))
  · exact .inr (.inr ((State.outStep_serveCommand hu).resetAfter s))
  · exact .inr (.inr (State.OutStep.of_out_eq rfl))
  · exact .inr (.inr (State.OutStep.of_out_eq rfl))
  · exact .inr (.inr (State.OutStep.of_out_eq rfl))
  · exact .inl ⟨rest, hp, rfl⟩
  · exact .inr (.inl ⟨n, rest, hp, rfl⟩)
  · exact .inr (.inr (State.OutStep.of_out_eq rfl))

/-- Settles O18, by what `DoEmit` leaves unchanged and what it does to OUT. -/
theorem emissionLeavesTheConfigurationAlone : Obligations.EmissionLeavesTheConfigurationAlone := by
  intro i s t hi h
  cases (exec_of_isEmission hi s).symm.trans h
  refine ⟨s.sameConfig_doEmit _, s.doEmit_choices _, ?_⟩
  obtain ⟨hreply, v, hv, -⟩ | hdrain := s.doEmit_out (modesOf i)
  · exact .inl ⟨hreply, v, hv⟩
  · exact .inr hdrain

/-- Settles O19, by the outcomes of `DoEmit`: with FAULT 0 it is not ignored, and with room it is not held. -/
theorem emissionIsAllOrNothing : Obligations.EmissionIsAllOrNothing := by
  intro i s hi hf hroom
  rw [← length_modesOf hi] at hroom ⊢
  refine ⟨_, exec_of_isEmission hi s, ?_⟩
  obtain ⟨hf', -⟩ | ⟨-, -, h⟩ | ⟨-, -, -, h⟩ | ⟨-, -, hfit, -, h⟩ | ⟨-, -, -, hfull, -⟩ :=
    s.doEmit_outcomes (modesOf i)
  · exact absurd (hf.symm.trans hf') (by decide)
  · rw [h]; exact .inr ⟨_, s.faulted_complete _⟩
  · rw [h]; exact .inr ⟨_, s.faulted_complete _⟩
  · rw [h]
    exact .inl ⟨framePackets (s.sections (modesOf i)) s.cc, rfl, by simp [length_framePackets s.cc hfit],
      by simp [toNat_ccAfter], hf, rfl⟩
  · exact absurd (hfull.symm.trans ((s.sinkAccepts_iff _).mpr hroom)) (by decide)

/-- Settles O20: the command has packets to append and no room for them, so it is held, and each kind of grant gives
its own held state. -/
theorem commandWithoutRoomIsHeld : Obligations.CommandWithoutRoomIsHeld := by
  intro i s c hi hf hv hasc hc hfull
  rw [← length_modesOf hi] at hfull
  have hemits : s.Emits (modesOf i) :=
    ⟨hf, hv, (s.sections_fit_iff _).mpr fun haac henc => hasc (ne_writeClear_of_encrypted_mode henc) haac⟩
  have hhold : exec i s = .next s.holdForSink := by
    rw [exec_of_isEmission hi, hemits.doEmit_eq, State.sinkAccepts_of_no_room hc hfull]; rfl
  rw [hhold]
  refine ⟨fun hg => ?_, fun n rest hg => ?_, fun n rest hg => ?_⟩
  · simp [State.holdForSink, hg]
  · rw [State.holdForSink_of_capacity hg hc]
  · rw [State.holdForSink_of_drain hg]; rfl

/-- Settles O21. A command with nothing to append is over in one step, whatever the sink holds. Any other waits, the
block unchanged, until the sink has room, and then commits the packets that it commits on a sink without a limit. -/
theorem heldCommandCompletesOnceThereIsRoom : Obligations.HeldCommandCompletesOnceThereIsRoom := by
  intro s u w i rest c grants more hp hd hi hc hg hroom hu
  rw [← length_modesOf hi] at hroom
  cases (exec_of_isEmission hi _).symm.trans hu
  have hstep : ∀ r : State, r.port = .command w [] :: rest → step r = .next (r.doEmit (modesOf i)) :=
    fun r hr => step_emission hr hd hi
  by_cases hs : s.Emits (modesOf i)
  · obtain ⟨used, left, t, rfl, hheld, haccepts⟩ := hs.heldFor_until_room hp hstep hc grants hg hroom
    have hfree : ({ s with outCapacity := none } : State).doEmit (modesOf i) =
        ({ s with outCapacity := none } : State).commitPackets (s.sections (modesOf i)) :=
      (hs.of_block_eq (t := { s with outCapacity := none }) rfl).doEmit_eq
    have ht : t.doEmit (modesOf i) = t.commitPackets (s.sections (modesOf i)) := by
      rw [(hs.of_block_eq hheld.block).doEmit_eq, if_pos haccepts, State.sections_of_block_eq hheld.block]
    obtain ⟨hcc, hcfg, -, -, -, hfault, hcause⟩ := State.block_eq_iff.mp hheld.block
    refine ⟨used, left, framePackets (s.sections (modesOf i)) s.cc, _, rfl,
      runSteps_succ_last hheld.run (hstep t (hheld.port.trans hp)), ?_⟩
    rw [hfree, ht]
    refine ⟨by simp [hheld.port, hp], ?_, rfl, hheld.outCapacity, ?_, ?_, hfault, hcause,
      .of_store_eq hcfg (State.store_eq_of_block_eq hheld.block :)⟩
    · exact List.append_cancel_left (as := used) (by rw [← List.append_assoc, ← hg]; exact hheld.grants.symm)
    · rw [State.commitPackets_out, hheld.out, hcc]
    · rw [State.commitPackets_cc, hcc]; rfl
  · obtain ⟨f, code, hover⟩ := State.doEmit_of_not_emits hs
    refine ⟨[], grants, [], _, rfl, runSteps_succ_last rfl (hstep s hp), ?_⟩
    rw [hover none, show s.doEmit (modesOf i) = _ from hover s.outCapacity]
    exact ⟨by simp [hp], hg, (List.append_nil _).symm, hc, (List.append_nil _).symm, rfl, rfl, rfl,
      rfl, rfl, rfl, fun _ => rfl⟩

end Sys2Proof.Machine

/-! # The family of 30_encoding.md: decoder and encoder agree, the decoder in arithmetic on the word, and what a step
does with a word that is no command -/

namespace Sys2Proof

/-! ## The decoder of a whole transaction -/

theorem withoutData_eq_ok {i j : Instr} {data : Bytes} : withoutData i data = .ok j ↔ data = [] ∧ j = i := by
  unfold withoutData
  split
  · next hd => simp [hd, eq_comm]
  · next hd => simp [hd]

/-- All the transactions that are commands (R74, R75). -/
theorem decode_ok_cases {w : CmdWord} {data : Bytes} {i : Instr} (h : decode w data = .ok i) :
    (decodeWord w = .writeClear ∧ data = [] ∧ i = .writeClear) ∨
    (decodeWord w = .writeClearLead ∧ data = [] ∧ i = .writeClearLead) ∨
    (decodeWord w = .writeEncrypted ∧ data = [] ∧ i = .writeEncrypted) ∨
    (∃ c n, decodeWord w = .init c n ∧ data.length = n.toNat ∧ i = .init c data) := by
  unfold decode at h
  cases hw : decodeWord w with
  | illegal => rw [hw] at h; cases h
  | badCodec => rw [hw] at h; cases h
  | init c n =>
    rw [hw] at h
    dsimp only at h
    split at h
    · next hl => cases h; exact .inr (.inr (.inr ⟨c, n, rfl, hl, rfl⟩))
    · cases h
  | writeClear => rw [hw] at h; exact .inl ⟨rfl, withoutData_eq_ok.mp h⟩
  | writeClearLead => rw [hw] at h; exact .inr (.inl ⟨rfl, withoutData_eq_ok.mp h⟩)
  | writeEncrypted => rw [hw] at h; exact .inr (.inr (.inl ⟨rfl, withoutData_eq_ok.mp h⟩))

/-- INIT's word with the count of its data bytes decodes to it, since up to 255 the 8-bit field holds the count. -/
theorem decode_initEncoding (c : Codec) {data : Bytes} (hlen : data.length ≤ 255) :
    decode (initEncoding c (BitVec.ofNat 8 data.length)) data = .ok (.init c data) := by
  have hw : decodeWord (initEncoding c (BitVec.ofNat 8 data.length)) = .init c (BitVec.ofNat 8 data.length) :=
    decodeWord_init.mpr rfl
  have hn : data.length = (BitVec.ofNat 8 data.length).toNat := by rw [BitVec.toNat_ofNat]; omega
  simp only [decode, hw, if_pos hn]

/-- A transaction decodes to a command exactly when it is the encoding of a well-formed one. -/
theorem decode_eq_ok_iff {w : CmdWord} {data : Bytes} {i : Instr} :
    decode w data = .ok i ↔ i.wf = true ∧ encode i = (w, data) := by
  constructor
  · intro h
    obtain ⟨hw, rfl, rfl⟩ | ⟨hw, rfl, rfl⟩ | ⟨hw, rfl, rfl⟩ | ⟨c, n, hw, hlen, rfl⟩ := decode_ok_cases h
    · exact ⟨rfl, by rw [decodeWord_writeClear.mp hw]; rfl⟩
    · exact ⟨rfl, by rw [decodeWord_writeClearLead.mp hw]; rfl⟩
    · exact ⟨rfl, by rw [decodeWord_writeEncrypted.mp hw]; rfl⟩
    · have hn := n.isLt
      refine ⟨(Instr.wf_init c data).mpr (by omega), ?_⟩
      rw [decodeWord_init.mp hw, encode, hlen, BitVec.ofNat_toNat, BitVec.setWidth_eq]
  · rintro ⟨hwf, henc⟩
    cases i with
    | writeClear => cases henc; rfl
    | writeClearLead => cases henc; rfl
    | writeEncrypted => cases henc; rfl
    | init c data => cases henc; exact decode_initEncoding c ((Instr.wf_init c data).mp hwf)

theorem decode_of_illegal {w : CmdWord} (hw : decodeWord w = .illegal) (data : Bytes) :
    decode w data = .error .illegalCommand := by
  simp only [decode, hw]

theorem decode_of_badCodec {w : CmdWord} (hw : decodeWord w = .badCodec) (data : Bytes) :
    decode w data = .error .unsupportedCodec := by
  simp only [decode, hw]

/-! ## The decoder of a word, in arithmetic on the word -/

/-- The opcode selects the command (R71, R75). -/
theorem decodeWord_eq (w : CmdWord) :
    decodeWord w =
      if w.toNat % 16 = 1 then writeWord w .writeClear
      else if w.toNat % 16 = 2 then writeWord w .writeClearLead
      else if w.toNat % 16 = 3 then writeWord w .writeEncrypted
      else if w.toNat % 16 = 4 then initWord w
      else .illegal := by
  simp only [decodeWord, opField_eq_iff, BitVec.toNat_ofNat, Nat.reducePow, Nat.reduceMod]

theorem writeWord_eq (w : CmdWord) (cmd : Cmd) :
    writeWord w cmd = if w.toNat / 16 ≠ 0 then .illegal else cmd := by
  simp only [writeWord, highField_eq_zero_iff, ne_eq, ite_not]

theorem ascLenField_eq_ofNat (w : CmdWord) : ascLenField w = BitVec.ofNat 8 (w.toNat / 256) := by
  rw [← toNat_ascLenField, BitVec.ofNat_toNat, BitVec.setWidth_eq]

section
variable {w : CmdWord}

theorem writeWord_eq_illegal {cmd : Cmd} (hcmd : cmd ≠ .illegal) :
    writeWord w cmd = .illegal ↔ w.toNat / 16 ≠ 0 := by
  simp [writeWord_eq, hcmd]

theorem writeWord_ne_badCodec {cmd : Cmd} (hcmd : cmd ≠ .badCodec) : writeWord w cmd ≠ .badCodec := by
  rw [writeWord_eq]
  split
  · decide
  · exact hcmd

theorem decodeWord_of_op_init (hop : w.toNat % 16 = 4) : decodeWord w = initWord w := by
  simp [decodeWord_eq, hop]

theorem initWord_of_reserved_bits (hrsv : w.toNat / 64 % 4 ≠ 0) : initWord w = .illegal := by
  rw [initWord, if_neg (mt (rsvField_eq_zero_iff w).mp hrsv)]

theorem initWord_of_codec (hrsv : w.toNat / 64 % 4 = 0) {c : Codec} (hc : w.toNat / 16 % 4 = c.code.toNat) :
    initWord w = .init c (BitVec.ofNat 8 (w.toNat / 256)) := by
  have hcodec : codecOf (codecField w) = some c := codecOf_eq_some.mpr ((codecField_eq_iff w _).mpr hc)
  rw [initWord, if_pos ((rsvField_eq_zero_iff w).mpr hrsv), hcodec, ascLenField_eq_ofNat]

theorem initWord_of_reserved_codec (hrsv : w.toNat / 64 % 4 = 0) (hc : 2 ≤ w.toNat / 16 % 4) :
    initWord w = .badCodec := by
  have hcodec : codecOf (codecField w) = none := codecOf_eq_none.mpr (by rwa [toNat_codecField])
  rw [initWord, if_pos ((rsvField_eq_zero_iff w).mpr hrsv), hcodec]

end

/-- The reserved bits are looked at before the codec (R75). -/
theorem initWord_eq (w : CmdWord) :
    initWord w =
      if w.toNat / 64 % 4 ≠ 0 then .illegal
      else if 2 ≤ w.toNat / 16 % 4 then .badCodec
      else if w.toNat / 16 % 4 = 0 then .init .h264 (BitVec.ofNat 8 (w.toNat / 256))
      else .init .aac (BitVec.ofNat 8 (w.toNat / 256)) := by
  split_ifs with hrsv hc h0
  · exact initWord_of_reserved_bits hrsv
  · exact initWord_of_reserved_codec (not_not.mp hrsv) hc
  · exact initWord_of_codec (not_not.mp hrsv) h0
  · exact initWord_of_codec (not_not.mp hrsv) (show w.toNat / 16 % 4 = 1 by omega)

theorem initWord_eq_illegal {w : CmdWord} : initWord w = .illegal ↔ w.toNat / 64 % 4 ≠ 0 := by
  refine ⟨fun h => ?_, initWord_of_reserved_bits⟩
  rw [initWord_eq] at h
  split_ifs at h with hrsv
  exact hrsv

theorem initWord_eq_badCodec {w : CmdWord} :
    initWord w = .badCodec ↔ w.toNat / 64 % 4 = 0 ∧ 2 ≤ w.toNat / 16 % 4 := by
  refine ⟨fun h => ?_, fun ⟨hrsv, hc⟩ => initWord_of_reserved_codec hrsv hc⟩
  rw [initWord_eq] at h
  split_ifs at h with hrsv hc
  exact ⟨not_not.mp hrsv, hc⟩

end Sys2Proof

namespace Sys2Proof.Machine

open Sys2Proof.Claims

/-! ## The words that are no command -/

/-- R76 lists the illegal words, opcode by opcode. -/
theorem decodeWord_eq_illegal {w : CmdWord} : decodeWord w = .illegal ↔ IllegalWord w := by
  rw [decodeWord_eq, IllegalWord]
  split_ifs with h1 h2 h3 h4
  · rw [writeWord_eq_illegal (by decide)]; omega
  · rw [writeWord_eq_illegal (by decide)]; omega
  · rw [writeWord_eq_illegal (by decide)]; omega
  · rw [initWord_eq_illegal]; omega
  · exact iff_of_true rfl (.inl (by omega))

theorem decodeWord_eq_badCodec {w : CmdWord} : decodeWord w = .badCodec ↔ ReservedCodecWord w := by
  constructor
  · intro h
    rw [decodeWord_eq] at h
    split_ifs at h with h1 h2 h3 h4
    · exact absurd h (writeWord_ne_badCodec (by decide))
    · exact absurd h (writeWord_ne_badCodec (by decide))
    · exact absurd h (writeWord_ne_badCodec (by decide))
    · exact ⟨h4, initWord_eq_badCodec.mp h⟩
  · rintro ⟨hop, hinit⟩
    rw [decodeWord_of_op_init hop, initWord_eq_badCodec.mpr hinit]

section
variable {s : State} {w : CmdWord} {data : Bytes} {rest : List HostEvent}

/-- While FAULT is 0, an illegal word is over at once and has recorded its fault (R76, R201). -/
theorem step_of_illegal (hp : s.port = .command w data :: rest) (hf : s.fault = false) (hw : decodeWord w = .illegal) :
    step s = .next ({ s with fault := true, cause := .illegalCommand } : State).complete := by
  rw [step_command hp, State.serveCommand, decode_of_illegal hw, ← State.doIllegal_of_clear hf]

/-- While FAULT is 0, an INIT with a reserved codec is over at once, has recorded its fault and left no writer
(R72, R171). -/
theorem step_of_badCodec (hp : s.port = .command w data :: rest) (hf : s.fault = false)
    (hw : decodeWord w = .badCodec) :
    step s = .next ({ s with cfgValid := false, fault := true, cause := .unsupportedCodec } : State).complete := by
  rw [step_command hp, State.serveCommand, decode_of_badCodec hw, ← State.doBadCodec_of_clear hf]

end

/-! ## The obligations of 30_encoding.md -/

/-- Settles O1: the encoding of a well-formed command is a transaction that decodes to it. -/
theorem decodeOfEncodeGivesTheCommand : Obligations.DecodeOfEncodeGivesTheCommand :=
  fun _ hwf => decode_eq_ok_iff.mpr ⟨hwf, rfl⟩

/-- Settles O2: only the encoding of a well-formed command decodes to it. -/
theorem encodeOfDecodeGivesTheTransaction : Obligations.EncodeOfDecodeGivesTheTransaction :=
  fun _ _ _ h => decode_eq_ok_iff.mp h

/-- Settles O3, by the decoder in arithmetic and the step on each of the two refused results. -/
theorem decodeFollowsTheFieldsOfEveryWord : Obligations.DecodeFollowsTheFieldsOfEveryWord := by
  refine ⟨fun w => ?_, fun s w data rest hp hf => ⟨fun hw => ?_, fun hw => ?_⟩⟩
  · rw [decodeWord_eq, initWord_eq]
    simp only [writeWord_eq]
  · exact ⟨_, step_of_illegal hp hf hw, rfl, rfl⟩
  · exact ⟨_, step_of_badCodec hp hf hw, rfl, rfl⟩

/-- Settles O7, by R76's list of the illegal words and the step on one. -/
theorem illegalWordFaultsAndDoesNothingElse : Obligations.IllegalWordFaultsAndDoesNothingElse := by
  refine ⟨fun w => decodeWord_eq_illegal, fun w hlegal hcodec => ?_, fun s w data rest hp hf hw => ?_⟩
  · cases hw : decodeWord w with
    | illegal => exact absurd (decodeWord_eq_illegal.mp hw) hlegal
    | badCodec => exact absurd (decodeWord_eq_badCodec.mp hw) hcodec
    | init c n => exact .inr (.inr (.inr ⟨c, n, rfl⟩))
    | writeClear => exact .inl rfl
    | writeClearLead => exact .inr (.inl rfl)
    | writeEncrypted => exact .inr (.inr (.inl rfl))
  · exact ⟨_, step_of_illegal hp hf (decodeWord_eq_illegal.mpr hw), s.faulted_complete _⟩

/-- Settles O8, by the cases of INIT's word and the step on a reserved codec. -/
theorem codecFieldSelectsTheVariantOrFaults : Obligations.CodecFieldSelectsTheVariantOrFaults := by
  refine ⟨fun w hop hrsv => ?_, fun s w data rest hp hf hw => ?_⟩
  · rw [decodeWord_of_op_init hop]
    exact ⟨fun h0 => ⟨_, initWord_of_codec (c := .h264) hrsv h0⟩, fun h1 => ⟨_, initWord_of_codec (c := .aac) hrsv h1⟩⟩
  · exact ⟨_, step_of_badCodec hp hf (decodeWord_eq_badCodec.mpr hw), rfl, rfl, rfl, rfl, rfl, fun _ => rfl, rfl, rfl,
      congrArg List.tail hp, rfl, rfl, rfl, rfl⟩

/-- Settles O10: the service of a transaction either leads on or is the one stop. -/
theorem onlyAMalformedTransactionStops : Obligations.OnlyAMalformedTransactionStops := by
  intro s w data rest hp
  rw [step_command hp]
  obtain ⟨hfits, t, ht⟩ | ⟨hbad, hstop⟩ := s.serveCommand_total w data
  · exact ⟨by simp [ht, hfits], by simp [ht]⟩
  · exact ⟨iff_of_true ⟨_, hstop⟩ hbad, by simp [hstop]⟩

/-- Settles O4, by running the decoder on the nine words. -/
theorem wordsOfTheSyntaxTableDecode : Obligations.WordsOfTheSyntaxTableDecode :=
  ⟨rfl, rfl, rfl, rfl, rfl, rfl, rfl, rfl, rfl⟩

end Sys2Proof.Machine

/-! # The family of 40_continuity_counter.md: the counter counts the packets, modulo 16, over any run without a restart -/

namespace Sys2Proof.Machine

/-! ## Numbered packets -/

@[simp] theorem toNat_counterByte_mod (cc : BitVec 4) : (counterByte cc).toNat % 16 = cc.toNat := by
  have := cc.isLt
  rw [counterByte, toNat_packed]
  omega

theorem framePacket_byte3 (sec : Bytes) (cc : BitVec 4) : (framePacket sec cc)[3]? = some (counterByte cc) := rfl

/-- The packets of a commit as a list: `framePackets` is their concatenation (R155). -/
def packetList (secs : List Bytes) (cc : BitVec 4) : List Bytes :=
  secs.zipIdx.map (fun x => framePacket x.1 (cc + BitVec.ofNat 4 x.2))

theorem flatten_packetList (secs : List Bytes) (cc : BitVec 4) : (packetList secs cc).flatten = framePackets secs cc := by
  rw [framePackets_eq_flatMap, packetList, List.flatMap_def]

@[simp] theorem length_packetList (secs : List Bytes) (cc : BitVec 4) : (packetList secs cc).length = secs.length := by
  simp [packetList]

theorem getElem?_packetList {secs : List Bytes} {cc : BitVec 4} {k : Nat} {p : Bytes}
    (h : (packetList secs cc)[k]? = some p) : ∃ sec ∈ secs, p = framePacket sec (cc + BitVec.ofNat 4 k) := by
  simp only [packetList, List.getElem?_map, List.getElem?_zipIdx, Option.map_map, Option.map_eq_some_iff] at h
  obtain ⟨sec, hsec, rfl⟩ := h
  exact ⟨sec, List.mem_of_getElem? hsec, by simp⟩

/-- Where the counter stands at the number of the packets before, the packets of a commit carry the indices that
follow (R103). -/
theorem stamped.append_packetList {ps secs : List Bytes} {cc : BitVec 4} (hps : stamped ps)
    (hfit : ∀ sec ∈ secs, sec.length ≤ 182) (hcc : cc.toNat = ps.length % 16) : stamped (ps ++ packetList secs cc) := by
  intro k p hp
  rcases Nat.lt_or_ge k ps.length with hk | hk
  · exact hps k p (by rwa [List.getElem?_append_left hk] at hp)
  · rw [List.getElem?_append_right hk] at hp
    obtain ⟨sec, hsec, rfl⟩ := getElem?_packetList hp
    refine ⟨length_framePacket _ (hfit sec hsec), _, framePacket_byte3 _ _, ?_⟩
    rw [toNat_counterByte_mod, BitVec.toNat_add, BitVec.toNat_ofNat, hcc]
    omega

/-! ## What a step that restarts nothing does to OUT and CC -/

/-- The first bytes of OUT are taken and the counter stays, or packets are committed and each one advances it. -/
def State.CountStep (s t : State) : Prop :=
  (t.cc = s.cc ∧ ∃ n, t.out = s.out.drop n) ∨
  ∃ secs, (∀ sec ∈ secs, sec.length ≤ 182) ∧ t.out = s.out ++ framePackets secs s.cc ∧ t.cc = ccAfter secs s.cc

theorem State.CountStep.of_eq {s t : State} (hcc : t.cc = s.cc) (hout : t.out = s.out) : s.CountStep t :=
  .inl ⟨hcc, 0, hout⟩

theorem State.countStep_holdForSink (s : State) : s.CountStep s.holdForSink := by
  obtain ⟨-, h⟩ | ⟨n, rest, -, h⟩ | ⟨n, rest, -, h⟩ := s.holdForSink_cases <;> rw [h]
  · exact .of_eq rfl rfl
  · exact .of_eq rfl rfl
  · exact .inl ⟨rfl, n, rfl⟩

theorem State.countStep_doEmit (s : State) (modes : List Mode) : s.CountStep (s.doEmit modes) := by
  obtain ⟨-, h⟩ | ⟨-, -, h⟩ | ⟨-, -, -, h⟩ | ⟨-, -, hfit, -, h⟩ | ⟨-, -, -, -, h⟩ := s.doEmit_outcomes modes <;> rw [h]
  · exact .of_eq rfl rfl
  · exact .of_eq rfl rfl
  · exact .of_eq rfl rfl
  · exact .inr ⟨s.sections modes, hfit, rfl, rfl⟩
  · exact s.countStep_holdForSink

@[simp] theorem State.doIllegal_cc (s : State) : s.doIllegal.cc = s.cc := by
  simp [State.doIllegal]

@[simp] theorem State.doBadCodec_cc (s : State) : s.doBadCodec.cc = s.cc := by
  unfold State.doBadCodec; split <;> simp

/-- No transaction but a well-formed INIT restarts the counter (R102). -/
theorem State.countStep_serveCommand {s t : State} {w : CmdWord} {data : Bytes} (hw : isInitWord w = false)
    (h : s.serveCommand w data = .next t) : s.CountStep t := by
  obtain ⟨-, rfl⟩ | ⟨-, rfl⟩ | ⟨c, n, hinit, -, -⟩ | ⟨modes, -, -, rfl⟩ := State.serveCommand_cases h
  · exact .of_eq s.doIllegal_cc s.doIllegal_out
  · exact .of_eq s.doBadCodec_cc s.doBadCodec_out
  · simp [isInitWord, hinit] at hw
  · exact s.countStep_doEmit modes

theorem countStep_step {s t : State} (hkeep : ∀ e ∈ s.port.take 1, e.restarts = false) (h : step s = .next t) :
    s.CountStep t := by
  cases hp : s.port with
  | nil => cases (step_idle hp).symm.trans h; exact .of_eq rfl rfl
  | cons e rest =>
    have he : e.restarts = false := hkeep e (by simp [hp])
    cases e with
    | command w data => exact State.countStep_serveCommand he (step_command hp ▸ h)
    | commandDuringReset w data => cases he
    | reset => cases he
    | readStatus => cases (step_readStatus hp).symm.trans h; exact .of_eq rfl rfl
    | clearOut => cases (step_clearOut hp).symm.trans h; exact .inl ⟨rfl, s.out.length, List.drop_length.symm⟩
    | drainOut n => cases (step_drainOut hp).symm.trans h; exact .inl ⟨rfl, n, rfl⟩
    | readOutSize => cases (step_readOutSize hp).symm.trans h; exact .of_eq rfl rfl

/-! ## The count -/

theorem eq_doInit_of_exec_init {c : Codec} {data : Bytes} {s t : State} (h : exec (.init c data) s = .next t) :
    t = s.doInit c data := by
  have hinit : execInit c data s = .next t := h
  unfold execInit at hinit
  split at hinit
  · exact (Host.Outcome.next.inj hinit).symm
  · cases hinit

/-- The count starts where the counter is at 0 (R102). -/
theorem State.countsFrom_of_cc_eq_zero {t : State} (h : t.cc = 0#4) : t.CountsFrom t.out [] 0 :=
  ⟨Nat.zero_le _, by simp, by simp [stamped], by simp [h]⟩

section
variable {s t : State} {base : Bytes} {ps : List Bytes} {taken : Nat}

/-- To drop `n` bytes is to drop as many as there are fewer of afterwards. -/
theorem eq_drop_of_taken {out left : Bytes} {n : Nat} (h : left = out.drop n) :
    left = out.drop (out.length - left.length) := by
  rw [h, List.drop_eq_drop_iff, List.length_drop]
  omega

theorem State.CountsFrom.of_drop (hs : s.CountsFrom base ps taken) (hcc : t.cc = s.cc) {n : Nat}
    (hout : t.out = s.out.drop n) : t.CountsFrom base ps (taken + (s.out.length - t.out.length)) := by
  obtain ⟨hle, hsout, hstamped, hcount⟩ := hs
  refine ⟨?_, ?_, hstamped, hcc ▸ hcount⟩
  · have hlen : s.out.length = (base ++ ps.flatten).length - taken := by rw [hsout, List.length_drop]
    omega
  · rw [← List.drop_drop, ← hsout]
    exact eq_drop_of_taken hout

theorem State.CountsFrom.of_commit (hs : s.CountsFrom base ps taken) {secs : List Bytes}
    (hfit : ∀ sec ∈ secs, sec.length ≤ 182) (hout : t.out = s.out ++ framePackets secs s.cc)
    (hcc : t.cc = ccAfter secs s.cc) : t.CountsFrom base (ps ++ packetList secs s.cc) taken := by
  obtain ⟨hle, hsout, hstamped, hcount⟩ := hs
  have hbytes : base ++ (ps ++ packetList secs s.cc).flatten = (base ++ ps.flatten) ++ framePackets secs s.cc := by
    rw [List.flatten_append, flatten_packetList, List.append_assoc]
  refine ⟨?_, ?_, hstamped.append_packetList hfit hcount, ?_⟩
  · rw [hbytes, List.length_append]; omega
  · rw [hout, hbytes, List.drop_append_of_le_length hle, hsout]
  · rw [hcc, toNat_ccAfter, hcount, List.length_append, length_packetList]; omega

theorem State.CountsFrom.countStep (hs : s.CountsFrom base ps taken) (h : s.CountStep t) :
    ∃ new, new.flatten = t.out.drop s.out.length ∧
      t.CountsFrom base (ps ++ new) (taken + (s.out.length - t.out.length)) := by
  obtain ⟨hcc, n, hout⟩ | ⟨secs, hfit, hout, hcc⟩ := h
  · refine ⟨[], by simp [hout], ?_⟩
    rw [List.append_nil]
    exact hs.of_drop hcc hout
  · refine ⟨packetList secs s.cc, by rw [hout, List.drop_left, flatten_packetList], ?_⟩
    have htaken : s.out.length - t.out.length = 0 := by rw [hout, List.length_append]; omega
    rw [htaken]
    exact hs.of_commit hfit hout hcc

end

/-! ## What comes up within `n` steps -/

/-- Of a queue that a step leaves alone or takes the head from, the first `n` entries after the step were among the
first `n + 1` before it. -/
theorem take_subset_of_served {α : Type} {l l' : List α} (h : l' = l ∨ l' = l.tail) (n : Nat) :
    l'.take n ⊆ l.take (n + 1) := by
  obtain rfl | rfl := h
  · exact List.take_subset_take_left _ n.le_succ
  · cases l with
    | nil => simp
    | cons a rest => simp

theorem take_one_subset_take_succ {α : Type} (l : List α) (n : Nat) : l.take 1 ⊆ l.take (n + 1) :=
  List.take_subset_take_left l (by omega)

/-- A run without a restart counts on from what was counted before. By induction on the steps. -/
theorem State.CountsFrom.runSteps {n : Nat} {s t : State} {base : Bytes} {ps : List Bytes} {taken : Nat}
    (hs : s.CountsFrom base ps taken) (hkeep : ∀ e ∈ s.port.take n, e.restarts = false)
    (h : runSteps n s = .next t) :
    ∃ new, new.flatten = appendedOver n s ∧ t.CountsFrom base (ps ++ new) (taken + takenOver n s) := by
  induction n generalizing s ps taken with
  | zero => cases h; exact ⟨[], rfl, by rw [List.append_nil]; exact hs⟩
  | succ n ih =>
    obtain ⟨u, hu, hrun⟩ := runSteps_succ h
    have hfirst : s.CountStep u := countStep_step (fun e he => hkeep e (take_one_subset_take_succ _ n he)) hu
    obtain ⟨new, hnew, hcounts⟩ := hs.countStep hfirst
    obtain ⟨later, hlater, hcounts'⟩ := ih hcounts
      (fun e he => hkeep e (take_subset_of_served (interactionsAreServedInOrder s u hu) n he)) hrun
    refine ⟨new ++ later, ?_, ?_⟩
    · rw [List.flatten_append, hnew, hlater, appendedOver_succ_of_next n hu]
    · rw [takenOver_succ_of_next n hu, ← List.append_assoc, ← Nat.add_assoc]
      exact hcounts'

/-! ## Steps that take nothing out of OUT -/

@[simp] theorem State.holdForSink_sinkGrants (s : State) : s.holdForSink.sinkGrants = s.sinkGrants.tail := by
  obtain ⟨hg, h⟩ | ⟨n, rest, hg, h⟩ | ⟨n, rest, hg, h⟩ := s.holdForSink_cases
  · rw [h, hg, List.tail_nil]
  · rw [h, hg, List.tail_cons]
  · rw [h, hg, List.tail_cons]

@[simp] theorem State.doIllegal_sinkGrants (s : State) : s.doIllegal.sinkGrants = s.sinkGrants := by
  simp [State.doIllegal]

@[simp] theorem State.doBadCodec_sinkGrants (s : State) : s.doBadCodec.sinkGrants = s.sinkGrants := by
  unfold State.doBadCodec; split <;> simp

theorem State.doEmit_sinkGrants (s : State) (modes : List Mode) :
    (s.doEmit modes).sinkGrants = s.sinkGrants ∨ (s.doEmit modes).sinkGrants = s.sinkGrants.tail := by
  obtain ⟨-, h⟩ | ⟨-, -, h⟩ | ⟨-, -, -, h⟩ | ⟨-, -, -, -, h⟩ | ⟨-, -, -, -, h⟩ := s.doEmit_outcomes modes <;> rw [h]
  · exact .inl rfl
  · exact .inl rfl
  · exact .inl rfl
  · exact .inl rfl
  · exact .inr s.holdForSink_sinkGrants

theorem State.serveCommand_sinkGrants {s t : State} {w : CmdWord} {data : Bytes} (h : s.serveCommand w data = .next t) :
    t.sinkGrants = s.sinkGrants ∨ t.sinkGrants = s.sinkGrants.tail := by
  obtain ⟨-, rfl⟩ | ⟨-, rfl⟩ | ⟨c, n, -, -, rfl⟩ | ⟨modes, -, -, rfl⟩ := State.serveCommand_cases h
  · exact .inl s.doIllegal_sinkGrants
  · exact .inl s.doBadCodec_sinkGrants
  · exact .inl rfl
  · exact s.doEmit_sinkGrants modes

/-- The grants are used one at a time and in order (R58). -/
theorem step_sinkGrants {s t : State} (h : step s = .next t) :
    t.sinkGrants = s.sinkGrants ∨ t.sinkGrants = s.sinkGrants.tail := by
  obtain ⟨-, rfl⟩ | ⟨w, data, _, -, hc⟩ | ⟨w, data, _, u, -, hu, rfl⟩ | ⟨_, _, _, -, rfl⟩ | ⟨_, -, rfl⟩ |
    ⟨_, -, rfl⟩ | ⟨_, -, rfl⟩ | ⟨n, _, -, rfl⟩ | ⟨_, -, rfl⟩ := step_cases h
  · exact .inl rfl
  · exact State.serveCommand_sinkGrants hc
  · rw [State.resetAfter_sinkGrants]; exact (State.serveCommand_sinkGrants hu :)
  · exact .inl rfl
  · exact .inl rfl
  · exact .inl rfl
  · exact .inl rfl
  · exact .inl rfl
  · exact .inl rfl

/-- Without a clear, a drain and a draining grant up next, a step leaves OUT at least as long. -/
theorem length_out_le_of_no_taking {s t : State} (hport : ∀ e ∈ s.port.take 1, e.takesBytes = false)
    (hgrants : ∀ g ∈ s.sinkGrants.take 1, g.takesBytes = false) (h : step s = .next t) :
    s.out.length ≤ t.out.length := by
  obtain ⟨rest, hp, -⟩ | ⟨n, rest, hp, -⟩ | ⟨n, rest, hg, -⟩ | ⟨v, hv, -⟩ := outGrowsByWholePackets s t h
  · cases hport .clearOut (by simp [hp])
  · cases hport (.drainOut n) (by simp [hp])
  · cases hgrants (.drain n) (by simp [hg])
  · rw [hv, List.length_append]; exact Nat.le_add_right _ _

theorem takenOver_eq_zero {n : Nat} {s t : State} (hport : ∀ e ∈ s.port.take n, e.takesBytes = false)
    (hgrants : ∀ g ∈ s.sinkGrants.take n, g.takesBytes = false) (h : runSteps n s = .next t) : takenOver n s = 0 := by
  induction n generalizing s with
  | zero => rfl
  | succ n ih =>
    obtain ⟨u, hu, hrun⟩ := runSteps_succ h
    have hfirst : s.out.length ≤ u.out.length :=
      length_out_le_of_no_taking (fun e he => hport e (take_one_subset_take_succ _ n he))
        (fun g hg => hgrants g (take_one_subset_take_succ _ n hg)) hu
    have hlater : takenOver n u = 0 :=
      ih (fun e he => hport e (take_subset_of_served (interactionsAreServedInOrder s u hu) n he))
        (fun g hg => hgrants g (take_subset_of_served (step_sinkGrants hu) n hg)) hrun
    rw [takenOver_succ_of_next n hu, hlater]
    omega

/-! ## The obligations of 40_continuity_counter.md -/

/-- Settles O35: INIT and RESET leave the counter at 0, and from there every step keeps the count, by the cases of what a
step does to OUT and CC. -/
theorem packetsCarryTheirIndexModuloSixteen : Obligations.PacketsCarryTheirIndexModuloSixteen := by
  refine ⟨fun c data s t h => ?_, fun s t rest hp h => ?_, fun n s t base ps taken hs hkeep h => ?_⟩
  · rw [eq_doInit_of_exec_init h]; exact State.countsFrom_of_cc_eq_zero rfl
  · cases (step_reset hp).symm.trans h; exact State.countsFrom_of_cc_eq_zero rfl
  · exact ⟨hs.runSteps hkeep h, fun hport hgrants => takenOver_eq_zero hport hgrants h⟩

/-- Settles O34, by the counter's step as a number. -/
theorem counterAdvancesModuloSixteen : Obligations.CounterAdvancesModuloSixteen :=
  fun s => ⟨rfl, toNat_nextCc s.cc, rfl⟩

end Sys2Proof.Machine

/-! # The family of 41_crc32.md: the engine's table form, the residue of data with its CRC, and the listed values -/

namespace Sys2Proof.Machine

/-! ## The register as its top byte and the bits below -/

/-- The byte that a byte step shifts out of the register: R115's `c >> 24`. -/
def crcTopByte (c : BitVec 32) : Byte := (c >>> 24).truncate 8

/-- The bits of the register below its top byte. -/
def crcLowBits (c : BitVec 32) : BitVec 32 := (c.truncate 24).zeroExtend 32

theorem crcLowBits_xor_topByte (c : BitVec 32) : crcLowBits c ^^^ ((crcTopByte c).zeroExtend 32 <<< 24) = c := by
  apply BitVec.eq_of_getLsbD_eq
  intro i hi
  by_cases hlow : i < 24
  · simp [crcLowBits, hlow, hi]
  · simp [crcLowBits, crcTopByte, hlow, hi, Nat.add_sub_cancel' (Nat.le_of_not_lt hlow), show i - 24 < 8 by omega]

theorem crcLowBits_shiftLeft (c : BitVec 32) : crcLowBits c <<< 8 = c <<< 8 := by
  apply BitVec.eq_of_getLsbD_eq
  intro i hi
  have hlow : i - 8 < 24 := by omega
  simp [crcLowBits, hlow, Nat.lt_of_lt_of_le hlow]

theorem crcTopByte_shiftLeft (c : BitVec 32) {n : Nat} (hn : n ≤ 24) :
    crcTopByte (c <<< n) = c.extractLsb' (24 - n) 8 := by
  apply BitVec.eq_of_getLsbD_eq
  intro i hi
  have hge : ¬ 24 + i < n := by omega
  simp [crcTopByte, hi, hge, Nat.sub_add_comm hn]
  omega

theorem be32_eq_topBytes (c : BitVec 32) :
    be32 c = [crcTopByte c, crcTopByte (c <<< 8), crcTopByte (c <<< 16), crcTopByte (c <<< 24)] := by
  have htop : crcTopByte c = c.extractLsb' 24 8 := by simpa using crcTopByte_shiftLeft c (Nat.zero_le 24)
  simp [be32, htop, crcTopByte_shiftLeft]

/-! ## The byte step by table (R115) -/

theorem crcBits_crcLowBits (c : BitVec 32) : crcBits 8 (crcLowBits c) = c <<< 8 := by
  have hsmall : (crcLowBits c).toNat < 2 ^ 24 := by simp [crcLowBits]; omega
  rw [crcBits_of_small 8 _ (by omega), crcLowBits_shiftLeft]

/-- The byte step is linear: the bits below the top byte are shifted up, and the eight bit
steps act on the top byte alone. -/
theorem crcByte_eq_crcByteByTable (c : BitVec 32) (b : Byte) : crcByte c b = crcByteByTable c b := by
  have hsplit : c ^^^ (b.zeroExtend 32 <<< 24) = crcLowBits c ^^^ ((crcTopByte c ^^^ b).zeroExtend 32 <<< 24) := by
    conv_lhs => rw [← crcLowBits_xor_topByte c]
    simp [BitVec.xor_assoc, BitVec.shiftLeft_xor_distrib]
  calc crcByte c b
      = crcBits 8 (crcLowBits c ^^^ ((crcTopByte c ^^^ b).zeroExtend 32 <<< 24)) := by rw [crcByte, hsplit]
    _ = (c <<< 8) ^^^ crcTable (crcTopByte c ^^^ b) := by rw [crcBits_xor, crcBits_crcLowBits, crcTable]

theorem crcFromByTable_eq_crcFrom (c : BitVec 32) (data : Bytes) : crcFromByTable c data = crcFrom c data := by
  induction data generalizing c with
  | nil => rfl
  | cons b rest ih => rw [crcFromByTable, crcFrom, ih, crcByte_eq_crcByteByTable]

/-! ## The residue (R114) -/

/-- The register's own top byte cancels it: nothing is left to subtract, and the byte step only shifts. -/
theorem crcByte_topByte (c : BitVec 32) : crcByte c (crcTopByte c) = c <<< 8 := by
  calc crcByte c (crcTopByte c)
      = (c <<< 8) ^^^ crcTable (crcTopByte c ^^^ crcTopByte c) := crcByte_eq_crcByteByTable c _
    _ = c <<< 8 := by rw [BitVec.xor_self, show crcTable 0#8 = 0#32 by decide, BitVec.xor_zero]

/-- The register's own four bytes shift it out. -/
theorem crcFrom_be32_self (c : BitVec 32) : crcFrom c (be32 c) = 0#32 := by
  rw [be32_eq_topBytes]
  simp only [crcFrom, crcByte_topByte, ← BitVec.shiftLeft_add]
  exact BitVec.shiftLeft_eq_zero (Nat.le_refl 32)

theorem crc32_append_be32 (data : Bytes) : crc32 (data ++ be32 (crc32 data)) = 0#32 := by
  rw [crc32, crcFrom_append]
  exact crcFrom_be32_self _

/-! ## The obligations of 41_crc32.md -/

/-- Settles O37: the section without its pointer field is its body followed by the body's CRC. -/
theorem sectionWithItsCrcHasResidueZero : Obligations.SectionWithItsCrcHasResidueZero :=
  fun c m asc => crc32_append_be32 (sectionBody c m asc)

/-- Settles O38, by induction on the bytes from any register; the listed entries are computed. -/
theorem crcTableFormEqualsTheBitwiseForm : Obligations.CrcTableFormEqualsTheBitwiseForm :=
  ⟨crcFromByTable_eq_crcFrom crcInit, by decide, by decide, by decide, by decide, by decide⟩

/-- Settles O36: the vectors are computed, and T-CRC-8 is the residue of T-CRC-4's body. -/
theorem crcGivesTheSpecsValues : Obligations.CrcGivesTheSpecsValues := by
  unfold Obligations.CrcGivesTheSpecsValues
  intro body
  have hbody : crc32 body = 0x434997BE#32 := by decide +kernel
  have hresidue : crc32 (body ++ be32 0x434997BE#32) = 0#32 := hbody ▸ crc32_append_be32 body
  exact ⟨rfl, by decide, by decide +kernel, hbody, by decide +kernel, by decide, by decide +kernel, hresidue⟩

end Sys2Proof.Machine

/-! # The family of 42_section_builder.md: the section's bytes as its fixed header, its descriptors and its CRC -/

namespace Sys2Proof.Machine

open Sys2Proof.Claims

/-! ## Slices of bytes as numbers -/

@[simp] theorem beNat_be16 (v : BitVec 16) : beNat (be16 v) = v.toNat := by
  rw [be16_eq]
  simp [beNat]
  omega

@[simp] theorem beNat_be32 (v : BitVec 32) : beNat (be32 v) = v.toNat := by
  rw [be32_eq]
  simp [beNat]
  omega

theorem bitsAt_be32 (v : BitVec 32) : bitsAt (be32 v) 0 4 31 0 = v.toNat := by
  rw [bitsAt, List.drop_zero, List.take_of_length_le (length_be32 v).le, beNat_be32, Nat.pow_zero, Nat.div_one]
  exact Nat.mod_eq_of_lt v.isLt

theorem bitsAt_append_right {a : Bytes} {off : Nat} (h : a.length = off) (b : Bytes) (len hi lo : Nat) :
    bitsAt (a ++ b) off len hi lo = bitsAt b 0 len hi lo := by
  rw [bitsAt, List.drop_left' h, bitsAt, List.drop_zero]

/-! ## The two bytes of a length field -/

section
variable {n : Nat} (top : BitVec 4)

theorem toNat_lengthWord (hn : n < 4096) : (top ++ BitVec.ofNat 12 n).toNat = top.toNat * 4096 + n := by
  simpa [Nat.mod_eq_of_lt hn] using toNat_packed top (BitVec.ofNat 12 n)

/-- The first byte: the four leading bits above the length's top four. -/
theorem toNat_lengthField_first (hn : n < 4096) :
    ((top ++ 0#4) ||| u8 (n / 256)).toNat = top.toNat * 16 + n / 256 := by
  have hor : top.toNat * 16 + n / 256 = top.toNat * 16 ||| n / 256 := by
    simpa [Nat.shiftLeft_eq] using Nat.shiftLeft_add_eq_or_of_lt (by omega : n / 256 < 2 ^ 4) top.toNat
  have hbyte : (u8 (n / 256)).toNat = n / 256 := Nat.mod_eq_of_lt (by omega : n / 256 < 2 ^ 8)
  rw [BitVec.toNat_or, hbyte, hor]
  exact congrArg (· ||| n / 256) (toNat_packed top 0#4)

theorem lengthField_eq (hn : n < 4096) : lengthField top n = [(top ++ 0#4) ||| u8 (n / 256), u8 (n % 256)] := by
  have hdiv : (top.toNat * 4096 + n) / 256 = ((top ++ 0#4) ||| u8 (n / 256)).toNat := by
    rw [toNat_lengthField_first top hn]
    omega
  have hsecond : BitVec.ofNat 8 (top.toNat * 4096 + n) = u8 (n % 256) := by
    apply BitVec.eq_of_toNat_eq
    rw [u8, BitVec.toNat_ofNat, BitVec.toNat_ofNat]
    omega
  rw [lengthField, be16_eq, toNat_lengthWord top hn, hsecond, hdiv, BitVec.ofNat_toNat, BitVec.setWidth_eq]

theorem beNat_lengthField (hn : n < 4096) : beNat (lengthField top n) = top.toNat * 4096 + n := by
  rw [lengthField, beNat_be16, toNat_lengthWord top hn]

theorem beNat_lengthField_take_one (hn : n < 4096) :
    beNat ((lengthField top n).take 1) = top.toNat * 16 + n / 256 := by
  rw [lengthField_eq top hn, ← toNat_lengthField_first top hn]
  exact Nat.zero_add _

end

/-! ## The modes -/

theorem Mode.isEncrypted_eq_true {m : Mode} : m.isEncrypted = true ↔ m = .clearLeadSecond ∨ m = .encrypted := by
  cases m <;> decide

theorem Mode.isEncrypted_eq_false {m : Mode} : m.isEncrypted = false ↔ m = .clear ∨ m = .clearLeadFirst := by
  cases m <;> decide

/-- R122's column for byte 6. -/
theorem versionByte_eq (m : Mode) : versionByte m = if m = .clearLeadSecond then 0xC2#8 else 0xC1#8 := by
  cases m <;> rfl

/-- R124. -/
theorem streamType_encrypted (c : Codec) {m : Mode} (h : m.isEncrypted = true) :
    streamType c m = streamType c .clear ||| 0xC0#8 := by
  cases c <;> rw [streamType, if_pos h] <;> rfl

/-! ## The ES descriptors (R125, R126, R128) -/

theorem esDescriptors_of_not_encrypted (c : Codec) {m : Mode} (asc : Bytes) (h : m.isEncrypted = false) :
    esDescriptors c m asc = [] := by
  simp [esDescriptors, h]

theorem esDescriptors_h264 {m : Mode} (asc : Bytes) (h : m.isEncrypted = true) :
    esDescriptors .h264 m asc = [0x0F#8, 0x04#8, 0x7A#8, 0x61#8, 0x76#8, 0x63#8] := by
  rw [esDescriptors, if_pos h]
  rfl

/-- R128's layout, with the low 8 bits of `12 + N` as the descriptor's length. -/
theorem registration_eq (asc : Bytes) :
    registration asc =
      [0x05#8, u8 (12 + asc.length), 0x61#8, 0x70#8, 0x61#8, 0x64#8, 0x7A#8, 0x61#8, 0x61#8, 0x63#8,
        0x00#8, 0x00#8, 0x01#8, u8 asc.length] ++ asc := by
  rw [registration, descriptor, length_setupData]
  rfl

theorem esDescriptors_aac {m : Mode} (asc : Bytes) (h : m.isEncrypted = true) :
    esDescriptors .aac m asc =
      [0x0F#8, 0x04#8, 0x61#8, 0x61#8, 0x63#8, 0x64#8,
        0x05#8, u8 (12 + asc.length), 0x61#8, 0x70#8, 0x61#8, 0x64#8, 0x7A#8, 0x61#8, 0x61#8, 0x63#8,
        0x00#8, 0x00#8, 0x01#8, u8 asc.length] ++ asc := by
  simp only [esDescriptors, if_pos h, registration_eq]
  rfl

theorem length_esDescriptors_eq_descriptorBytes (c : Codec) (m : Mode) (asc : Bytes) :
    (esDescriptors c m asc).length = descriptorBytes c m asc.length := by
  rw [length_esDescriptors]
  cases c <;> cases m <;> rfl

theorem descriptorBytes_le (c : Codec) (m : Mode) (n : Nat) : descriptorBytes c m n ≤ 20 + n := by
  cases c <;> cases m <;> simp [descriptorBytes] <;> omega

/-! ## The section's header: its 18 bytes before the descriptors -/

/-- Bytes 0 to 17 of a section with `d` bytes of descriptors, from the pointer field to ES_info_length. -/
def sectionHeader (c : Codec) (m : Mode) (d : Nat) : Bytes :=
  0x00#8 :: tableId :: lengthField 0b1011#4 (18 + d) ++ be16 programNumber ++ [versionByte m, 0x00#8, 0x00#8] ++
  pidField 0b111#3 esPid ++ lengthField 0b1111#4 0 ++ streamType c m :: pidField 0b111#3 esPid ++
  lengthField 0b1111#4 d

@[simp] theorem length_sectionHeader (c : Codec) (m : Mode) (d : Nat) : (sectionHeader c m d).length = 18 := rfl

section
variable (c : Codec) (m : Mode) (asc : Bytes)

theorem cons_sectionBody :
    0x00#8 :: sectionBody c m asc = sectionHeader c m (descriptorBytes c m asc.length) ++ esDescriptors c m asc := by
  rw [← length_esDescriptors_eq_descriptorBytes]
  rfl

theorem buildSection_eq :
    buildSection c m asc =
      sectionHeader c m (descriptorBytes c m asc.length) ++ esDescriptors c m asc ++
        be32 (crc32 (sectionBody c m asc)) := by
  rw [← cons_sectionBody]
  rfl

theorem length_buildSection_eq : (buildSection c m asc).length = 22 + descriptorBytes c m asc.length := by
  rw [length_buildSection, length_esDescriptors_eq_descriptorBytes]

theorem length_sectionBody : (sectionBody c m asc).length = 17 + descriptorBytes c m asc.length := by
  rw [sectionBody, length_sectionBodyWith, length_esDescriptors_eq_descriptorBytes]

theorem getElem?_buildSection_before_crc {k : Nat} (hk : k < 18 + descriptorBytes c m asc.length) :
    (buildSection c m asc)[k]? = (0x00#8 :: sectionBody c m asc)[k]? := by
  rw [buildSection, ← List.cons_append, List.getElem?_append_left (by rw [List.length_cons, length_sectionBody]; omega)]

theorem buildSection_byte6 : (buildSection c m asc)[6]? = some (versionByte m) :=
  getElem?_buildSection_before_crc c m asc (by omega)

theorem buildSection_byte13 : (buildSection c m asc)[13]? = some (streamType c m) :=
  getElem?_buildSection_before_crc c m asc (by omega)

/-! ## The fields of the header -/

variable {c m asc} in
/-- A field of the header, read off the slice `bytes` that it stands in. -/
theorem bitsAt_buildSection {off len hi lo v : Nat} (bytes : Bytes) (h : off + len ≤ 18)
    (hslice : ((sectionHeader c m (descriptorBytes c m asc.length)).drop off).take len = bytes)
    (hv : beNat bytes / 2 ^ lo % 2 ^ (hi - lo + 1) = v) : bitsAt (buildSection c m asc) off len hi lo = v := by
  rw [bitsAt, buildSection_eq, List.append_assoc, List.drop_append_of_le_length (by rw [length_sectionHeader]; omega),
    List.take_append_of_le_length (by rw [List.length_drop, length_sectionHeader]; omega), hslice, hv]

section
variable {asc} (hasc : asc.length ≤ 255)
include hasc

/-- The bits before section_length (section_syntax_indicator 1, a '0' bit and reserved 0b11) and its 12 bits (R129). -/
theorem bitsAt_buildSection_sectionLength :
    bitsAt (buildSection c m asc) 2 1 7 7 = 1 ∧ bitsAt (buildSection c m asc) 2 1 6 6 = 0 ∧
    bitsAt (buildSection c m asc) 2 1 5 4 = 3 ∧
    bitsAt (buildSection c m asc) 2 2 11 0 = 18 + descriptorBytes c m asc.length := by
  have hle := descriptorBytes_le c m asc.length
  have hfirst : beNat ((lengthField 0b1011#4 (18 + descriptorBytes c m asc.length)).take 1) =
    11 * 16 + (18 + descriptorBytes c m asc.length) / 256 := beNat_lengthField_take_one _ (by omega)
  have hword : beNat (lengthField 0b1011#4 (18 + descriptorBytes c m asc.length)) =
    11 * 4096 + (18 + descriptorBytes c m asc.length) := beNat_lengthField _ (by omega)
  have first : ∀ {hi lo v : Nat},
      (11 * 16 + (18 + descriptorBytes c m asc.length) / 256) / 2 ^ lo % 2 ^ (hi - lo + 1) = v →
      bitsAt (buildSection c m asc) 2 1 hi lo = v :=
    fun h => bitsAt_buildSection ((lengthField 0b1011#4 _).take 1) (by decide) rfl (hfirst ▸ h)
  exact ⟨first (by omega), first (by omega), first (by omega),
    bitsAt_buildSection (lengthField 0b1011#4 _) (by decide) rfl (by rw [hword]; omega)⟩

/-- The reserved bits before ES_info_length and its 12 bits (R131). -/
theorem bitsAt_buildSection_esInfoLength :
    bitsAt (buildSection c m asc) 16 1 7 4 = 15 ∧
    bitsAt (buildSection c m asc) 16 2 11 0 = descriptorBytes c m asc.length := by
  have hle := descriptorBytes_le c m asc.length
  have hfirst : beNat ((lengthField 0b1111#4 (descriptorBytes c m asc.length)).take 1) =
    15 * 16 + descriptorBytes c m asc.length / 256 := beNat_lengthField_take_one _ (by omega)
  have hword : beNat (lengthField 0b1111#4 (descriptorBytes c m asc.length)) =
    15 * 4096 + descriptorBytes c m asc.length := beNat_lengthField _ (by omega)
  exact ⟨bitsAt_buildSection ((lengthField 0b1111#4 _).take 1) (by decide) rfl (by rw [hfirst]; omega),
    bitsAt_buildSection (lengthField 0b1111#4 _) (by decide) rfl (by rw [hword]; omega)⟩

end

/-- The reserved bits of byte 6, and the two fields that the mode chooses (R122). -/
theorem bitsAt_buildSection_byte6 :
    bitsAt (buildSection c m asc) 6 1 7 6 = 3 ∧
    bitsAt (buildSection c m asc) 6 1 5 1 = (if m = .clearLeadSecond then 1 else 0) ∧
    bitsAt (buildSection c m asc) 6 1 0 0 = (if m = .clearLeadSecond then 0 else 1) := by
  refine ⟨bitsAt_buildSection [versionByte m] (by decide) rfl ?_,
    bitsAt_buildSection [versionByte m] (by decide) rfl ?_,
    bitsAt_buildSection [versionByte m] (by decide) rfl ?_⟩ <;> cases m <;> rfl

theorem bitsAt_buildSection_streamType : bitsAt (buildSection c m asc) 13 1 7 0 = streamTypeOf c m :=
  bitsAt_buildSection [streamType c m] (by decide) rfl (by cases c <;> cases m <;> rfl)

/-! ## What follows the header -/

theorem drop_take_buildSection :
    ((buildSection c m asc).drop 18).take (descriptorBytes c m asc.length) = esDescriptors c m asc := by
  rw [buildSection_eq, List.append_assoc, List.drop_left' (length_sectionHeader ..),
    List.take_left' (length_esDescriptors_eq_descriptorBytes c m asc)]

/-- The CRC stands after the body, and is the CRC of bytes 1 to `17 + D` (R130). -/
theorem bitsAt_buildSection_crc :
    bitsAt (buildSection c m asc) (18 + descriptorBytes c m asc.length) 4 31 0 =
      (crc32 (((buildSection c m asc).drop 1).take (17 + descriptorBytes c m asc.length))).toNat := by
  have hbody : ((buildSection c m asc).drop 1).take (17 + descriptorBytes c m asc.length) = sectionBody c m asc :=
    List.take_left' (length_sectionBody c m asc)
  rw [hbody, buildSection_eq, bitsAt_append_right (by simp [length_esDescriptors_eq_descriptorBytes]), bitsAt_be32]

end

/-! ## The pseudocode's forms (R134) -/

theorem buildSection_eq_withCrc (c : Codec) (m : Mode) (asc : Bytes) :
    buildSection c m asc = withCrc (sectionBody c m asc) := by
  rw [buildSection, be32_eq]
  rfl

theorem versionByte_eq_or (m : Mode) :
    versionByte m = 0xC0#8 ||| (if m = .clearLeadSecond then 0x01#8 else 0x00#8) <<< 1 |||
      (if m = .clearLeadSecond then 0x00#8 else 0x01#8) := by
  cases m <;> rfl

theorem streamType_eq_or (c : Codec) (m : Mode) :
    streamType c m = (if c = .h264 then 0x1B#8 else 0x0F#8) |||
      (if m = .clearLeadSecond ∨ m = .encrypted then 0xC0#8 else 0x00#8) := by
  cases c <;> cases m <;> rfl

theorem esDescriptors_eq_ite (c : Codec) (m : Mode) (asc : Bytes) :
    esDescriptors c m asc =
      if m = .clearLeadSecond ∨ m = .encrypted then
        [0x0F#8, 0x04#8] ++
        (if c = .h264 then [0x7A#8, 0x61#8, 0x76#8, 0x63#8] else [0x61#8, 0x61#8, 0x63#8, 0x64#8]) ++
        (if c = .aac then
          [0x05#8, u8 (12 + asc.length), 0x61#8, 0x70#8, 0x61#8, 0x64#8, 0x7A#8, 0x61#8, 0x61#8, 0x63#8,
            0x00#8, 0x00#8, 0x01#8, u8 asc.length] ++ asc
         else [])
      else [] := by
  split
  next hm =>
    cases c with
    | h264 => exact esDescriptors_h264 asc (Mode.isEncrypted_eq_true.mpr hm)
    | aac => exact esDescriptors_aac asc (Mode.isEncrypted_eq_true.mpr hm)
  next hm =>
    exact esDescriptors_of_not_encrypted c asc (Bool.eq_false_iff.mpr (mt Mode.isEncrypted_eq_true.mp hm))

theorem sectionBody_eq (c : Codec) (m : Mode) {asc : Bytes} (hasc : asc.length ≤ 255) :
    sectionBody c m asc =
      [0x02#8, 0xB0#8 ||| u8 ((18 + (esDescriptors c m asc).length) / 256),
        u8 ((18 + (esDescriptors c m asc).length) % 256), 0x00#8, 0x01#8, versionByte m, 0x00#8, 0x00#8,
        0xE0#8, 0x50#8, 0xF0#8, 0x00#8, streamType c m, 0xE0#8, 0x50#8,
        0xF0#8 ||| u8 ((esDescriptors c m asc).length / 256), u8 ((esDescriptors c m asc).length % 256)] ++
      esDescriptors c m asc := by
  have hle : (esDescriptors c m asc).length ≤ 20 + asc.length :=
    length_esDescriptors_eq_descriptorBytes c m asc ▸ descriptorBytes_le c m asc.length
  rw [sectionBody, sectionBodyWith, sectionLength, lengthField_eq 0b1011#4 (by omega),
    lengthField_eq 0b1111#4 (n := (esDescriptors c m asc).length) (by omega)]
  rfl

/-! ## Encrypted against ClearLeadSecond (R143) -/

theorem cons_sectionBody_encrypted (c : Codec) (asc : Bytes) :
    0x00#8 :: sectionBody c .encrypted asc = (0x00#8 :: sectionBody c .clearLeadSecond asc).set 6 0xC1#8 := by
  cases c <;> rfl

/-! ## The obligations of 42_section_builder.md -/

/-- Settles O39: the fixed fields are read off the header, the others by their own lemmas. -/
theorem sectionHasTheFieldsOfTheLayout : Obligations.SectionHasTheFieldsOfTheLayout := by
  unfold Obligations.SectionHasTheFieldsOfTheLayout
  intro c m asc hasc sec d
  obtain ⟨hsyntax, hzero, hreserved, hlength⟩ := bitsAt_buildSection_sectionLength c m hasc
  obtain ⟨hreserved6, hversion, hcurrent⟩ := bitsAt_buildSection_byte6 c m asc
  obtain ⟨hreserved16, hinfo⟩ := bitsAt_buildSection_esInfoLength c m hasc
  exact ⟨length_buildSection_eq c m asc,
    bitsAt_buildSection [0x00#8] (by decide) rfl rfl, bitsAt_buildSection [0x02#8] (by decide) rfl rfl,
    hsyntax, hzero, hreserved, hlength, bitsAt_buildSection [0x00#8, 0x01#8] (by decide) rfl rfl,
    hreserved6, hversion, hcurrent,
    bitsAt_buildSection [0x00#8] (by decide) rfl rfl, bitsAt_buildSection [0x00#8] (by decide) rfl rfl,
    bitsAt_buildSection [0xE0#8] (by decide) rfl rfl, bitsAt_buildSection [0xE0#8, 0x50#8] (by decide) rfl rfl,
    bitsAt_buildSection [0xF0#8] (by decide) rfl rfl, bitsAt_buildSection [0xF0#8, 0x00#8] (by decide) rfl rfl,
    bitsAt_buildSection_streamType c m asc,
    bitsAt_buildSection [0xE0#8] (by decide) rfl rfl, bitsAt_buildSection [0xE0#8, 0x50#8] (by decide) rfl rfl,
    hreserved16, hinfo, drop_take_buildSection c m asc, bitsAt_buildSection_crc c m asc⟩

/-- Settles O40: the body has the pseudocode's bytes around the descriptors, and the descriptors are the pseudocode's. -/
theorem builderFollowsItsPseudocode : Obligations.BuilderFollowsItsPseudocode := by
  unfold Obligations.BuilderFollowsItsPseudocode
  intro c m asc hasc enc ver cni st desc len body
  have hdesc : esDescriptors c m asc = desc := by
    simp only [desc, enc, decide_eq_true_eq, esDescriptors_eq_ite]
  have hst : streamType c m = st := by
    simp only [st, enc, decide_eq_true_eq, streamType_eq_or]
  rw [buildSection_eq_withCrc, sectionBody_eq c m hasc, hdesc, versionByte_eq_or, hst]

/-- Settles O41: the markers by mode and codec, and both length bytes hold what fits in them. -/
theorem descriptorsCarryTheMarkersAndTheConfiguration : Obligations.DescriptorsCarryTheMarkersAndTheConfiguration := by
  unfold Obligations.DescriptorsCarryTheMarkersAndTheConfiguration
  intro m asc hasc
  refine ⟨fun hm c => esDescriptors_of_not_encrypted c asc (Mode.isEncrypted_eq_false.mpr hm), fun hm => ?_⟩
  have henc := Mode.isEncrypted_eq_true.mpr hm
  refine ⟨esDescriptors_h264 asc henc, u8 (12 + asc.length), u8 asc.length, fun hlen => ?_, ?_,
    esDescriptors_aac asc henc⟩
  · exact Nat.mod_eq_of_lt (by omega : 12 + asc.length < 2 ^ 8)
  · exact Nat.mod_eq_of_lt (by omega : asc.length < 2 ^ 8)

/-- Settles O42: `12 + N` is 256 to 267, so its low byte is what is above 256. -/
theorem longConfigurationKeepsTheLowByteOfItsLength : Obligations.LongConfigurationKeepsTheLowByteOfItsLength := by
  unfold Obligations.LongConfigurationKeepsTheLowByteOfItsLength
  intro m asc hlow hhigh hm
  have henc := Mode.isEncrypted_eq_true.mpr hm
  refine ⟨⟨u8 (12 + asc.length), by rw [esDescriptors_aac asc henc]; rfl, ?_⟩,
    (tooLarge_buildSection .aac m asc).mpr ⟨rfl, henc, by omega⟩⟩
  rw [u8, BitVec.toNat_ofNat]
  omega

/-- Settles O43: byte 6 is the version byte, a function of the mode. -/
theorem versionByteDependsOnTheModeAlone : Obligations.VersionByteDependsOnTheModeAlone := by
  unfold Obligations.VersionByteDependsOnTheModeAlone
  intro c m asc
  obtain ⟨-, hversion, hcurrent⟩ := bitsAt_buildSection_byte6 c m asc
  exact ⟨hversion, hcurrent, versionByte_eq m ▸ buildSection_byte6 c m asc⟩

/-- Settles O44: before the CRC, the Encrypted section is the ClearLeadSecond one with 0xC1 put at byte 6. -/
theorem modePairsDifferAtMostInVersionByteAndCrc : Obligations.ModePairsDifferAtMostInVersionByteAndCrc := by
  unfold Obligations.ModePairsDifferAtMostInVersionByteAndCrc
  intro c asc
  have hd : descriptorBytes c .encrypted asc.length = descriptorBytes c .clearLeadSecond asc.length := by cases c <;> rfl
  have hclear : sectionBody c .clearLeadFirst asc = sectionBody c .clear asc := by cases c <;> rfl
  refine ⟨by rw [buildSection, hclear, buildSection], by rw [length_buildSection_eq, length_buildSection_eq, hd],
    buildSection_byte6 c .encrypted asc, buildSection_byte6 c .clearLeadSecond asc, fun k hne hk => ?_⟩
  rw [length_buildSection_eq] at hk
  rw [getElem?_buildSection_before_crc c .encrypted asc (by omega),
    getElem?_buildSection_before_crc c .clearLeadSecond asc (by omega),
    cons_sectionBody_encrypted, List.getElem?_set_ne hne.symm]

/-- Settles O45: byte 13 is the stream_type. -/
theorem encryptedStreamTypeSetsTheTopTwoBits : Obligations.EncryptedStreamTypeSetsTheTopTwoBits := by
  unfold Obligations.EncryptedStreamTypeSetsTheTopTwoBits
  intro c asc m hm
  refine ⟨streamType c .clear, streamType c .clear ||| 0xC0#8, buildSection_byte13 c .clear asc, ?_, rfl, ?_⟩
  · rw [buildSection_byte13, streamType_encrypted c (Mode.isEncrypted_eq_true.mpr hm)]
  · cases c <;> decide

/-- Settles O46: every size is a sum with R136's `D`. -/
theorem sectionSizesFollowTheTable : Obligations.SectionSizesFollowTheTable := by
  unfold Obligations.SectionSizesFollowTheTable
  intro c m asc hasc n
  have hn : n = 22 + descriptorBytes c m asc.length := length_buildSection_eq c m asc
  obtain ⟨-, -, -, hlength⟩ := bitsAt_buildSection_sectionLength c m hasc
  refine ⟨length_esDescriptors_eq_descriptorBytes c m asc, hlength, hn, ?_, ?_⟩
  · rw [hn, stuffingCount, maxSectionBytes, tsPacketSize, framerFixedBytes]
    omega
  · rw [tooLarge_buildSection, Mode.isEncrypted_eq_true]

end Sys2Proof.Machine

/-! # The family of 43_ts_framer.md: the packet as its six header bytes, its stuffing and its section -/

namespace Sys2Proof.Machine

open Sys2Proof.Claims

/-! ## The bytes of a packet -/

/-- The six bytes before the stuffing (R150). -/
def packetHeader (n : Nat) (cc : BitVec 4) : Bytes :=
  [0x47#8, 0x40#8, 0x20#8, counterByte cc, adaptationFieldLength n, 0x00#8]

@[simp] theorem length_packetHeader (n : Nat) (cc : BitVec 4) : (packetHeader n cc).length = 6 := rfl

theorem framePacket_eq (sec : Bytes) (cc : BitVec 4) :
    framePacket sec cc = packetHeader sec.length cc ++ List.replicate (stuffingCount sec.length) stuffingByte ++ sec :=
  rfl

theorem stuffingCount_eq (n : Nat) : stuffingCount n = 182 - n := rfl

theorem toNat_counterByte (cc : BitVec 4) : (counterByte cc).toNat = 48 + cc.toNat :=
  toNat_packed 0b0011#4 cc

/-- adaptation_field_length counts the flags byte and the stuffing (R152). -/
theorem adaptationFieldLength_eq {n : Nat} (h : n ≤ 182) : adaptationFieldLength n = u8 (183 - n) := by
  rw [adaptationFieldLength, stuffingCount_eq, u8, show 182 - n + 1 = 183 - n by omega]

theorem toNat_adaptationFieldLength {n : Nat} (h : n ≤ 182) : (adaptationFieldLength n).toNat = 183 - n := by
  rw [adaptationFieldLength_eq h]
  exact Nat.mod_eq_of_lt (by omega : 183 - n < 2 ^ 8)

/-! ## The fields of a packet -/

section
variable (sec : Bytes) (cc : BitVec 4)

variable {sec cc} in
/-- A field of the header, read off the slice `bytes` that it stands in. -/
theorem bitsAt_framePacket {off len hi lo v : Nat} (bytes : Bytes)
    (hslice : ((framePacket sec cc).drop off).take len = bytes)
    (hv : beNat bytes / 2 ^ lo % 2 ^ (hi - lo + 1) = v) : bitsAt (framePacket sec cc) off len hi lo = v := by
  rw [bitsAt, hslice, hv]

/-- The control bits and the counter of byte 3 (R150). -/
theorem bitsAt_framePacket_byte3 :
    bitsAt (framePacket sec cc) 3 1 7 6 = 0 ∧ bitsAt (framePacket sec cc) 3 1 5 4 = 3 ∧
    bitsAt (framePacket sec cc) 3 1 3 0 = cc.toNat := by
  have hcc := cc.isLt
  have hbyte : beNat [counterByte cc] = 48 + cc.toNat := (Nat.zero_add _).trans (toNat_counterByte cc)
  have field : ∀ {hi lo v : Nat}, (48 + cc.toNat) / 2 ^ lo % 2 ^ (hi - lo + 1) = v →
      bitsAt (framePacket sec cc) 3 1 hi lo = v :=
    fun h => bitsAt_framePacket [counterByte cc] rfl (hbyte ▸ h)
  exact ⟨field (by omega), field (by omega), field (by omega)⟩

variable {sec} (hfit : sec.length ≤ 182)
include hfit

theorem bitsAt_framePacket_adaptationFieldLength : bitsAt (framePacket sec cc) 4 1 7 0 = 183 - sec.length := by
  have hbyte : beNat [adaptationFieldLength sec.length] = 183 - sec.length :=
    (Nat.zero_add _).trans (toNat_adaptationFieldLength hfit)
  exact bitsAt_framePacket [adaptationFieldLength sec.length] rfl (by rw [hbyte]; omega)

/-- The stuffing stands between the header and the section (R153). -/
theorem getElem?_framePacket_stuffing {k : Nat} (hlow : 6 ≤ k) (hhigh : k < 188 - sec.length) :
    (framePacket sec cc)[k]? = some 0xFF#8 := by
  have hstuff : k - (packetHeader sec.length cc).length < stuffingCount sec.length := by
    rw [stuffingCount_eq, length_packetHeader]
    omega
  rw [framePacket_eq, List.append_assoc, List.getElem?_append_right hlow,
    List.getElem?_append_left (by rwa [List.length_replicate]), List.getElem?_replicate, if_pos hstuff]
  rfl

/-- The section ends the packet. -/
theorem drop_framePacket : (framePacket sec cc).drop (188 - sec.length) = sec := by
  refine List.drop_left' (?_ : (packetHeader sec.length cc ++ List.replicate _ _).length = _)
  rw [List.length_append, length_packetHeader, List.length_replicate, stuffingCount_eq]
  omega

end

/-! ## The packets of a commit, numbered by plain arithmetic -/

theorem counterByte_ofNat (n : Nat) : counterByte (BitVec.ofNat 4 n) = u8 (0x30 + n % 16) := by
  apply BitVec.eq_of_toNat_eq
  rw [toNat_counterByte, u8, BitVec.toNat_ofNat, BitVec.toNat_ofNat]
  omega

theorem framePacket_ofNat {sec : Bytes} (hfit : sec.length ≤ 182) (n : Nat) :
    framePacket sec (BitVec.ofNat 4 n) = packetOf n sec := by
  rw [framePacket_eq, packetHeader, counterByte_ofNat, adaptationFieldLength_eq hfit]
  rfl

/-- Packet `k` is section `k` with the counter `n + k` (R103, R155), by induction on the sections. -/
theorem framePackets_ofNat {secs : List Bytes} (hfit : ∀ sec ∈ secs, sec.length ≤ 182) (n : Nat) :
    framePackets secs (BitVec.ofNat 4 n) =
      (List.range secs.length).flatMap (fun k => packetOf (n + k) (secs.getD k [])) := by
  induction secs generalizing n with
  | nil => rfl
  | cons sec rest ih =>
    obtain ⟨hsec, hrest⟩ := List.forall_mem_cons.mp hfit
    have hnext : nextCc (BitVec.ofNat 4 n) = BitVec.ofNat 4 (n + 1) := (BitVec.ofNat_add ..).symm
    rw [framePackets, framePacket_ofNat hsec, hnext, ih hrest, List.length_cons, List.range_succ_eq_map,
      List.flatMap_cons, List.flatMap_map]
    simp only [Nat.add_zero, List.getD_cons_zero, List.getD_cons_succ, Nat.add_right_comm n 1, Nat.add_assoc n _ 1]

/-- A commit appends the packets, advances the counter, ends the command, and changes nothing else (R156). -/
theorem State.emitted_commitPackets (s : State) (secs : List Bytes) :
    Emitted s (s.commitPackets secs) (framePackets secs s.cc) secs.length :=
  ⟨rfl, toNat_ccAfter secs s.cc, ⟨rfl, rfl, rfl, fun _ => rfl⟩, ⟨rfl, rfl⟩, rfl, ⟨rfl, rfl, rfl, rfl⟩⟩

/-! ## The obligations of 43_ts_framer.md -/

/-- Settles O47: the fixed fields are read off the header, the others by their own lemmas. -/
theorem packetHasTheFieldsOfTheLayout : Obligations.PacketHasTheFieldsOfTheLayout := by
  unfold Obligations.PacketHasTheFieldsOfTheLayout
  intro sec cc hfit p
  obtain ⟨hscrambling, hadaptation, hcounter⟩ := bitsAt_framePacket_byte3 sec cc
  exact ⟨length_framePacket cc hfit, bitsAt_framePacket [0x47#8] rfl rfl,
    bitsAt_framePacket [0x40#8] rfl rfl, bitsAt_framePacket [0x40#8] rfl rfl, bitsAt_framePacket [0x40#8] rfl rfl,
    bitsAt_framePacket [0x40#8, 0x20#8] rfl rfl,
    hscrambling, hadaptation, hcounter,
    bitsAt_framePacket_adaptationFieldLength cc hfit, bitsAt_framePacket [0x00#8] rfl rfl,
    fun _ => getElem?_framePacket_stuffing cc hfit, drop_framePacket cc hfit⟩

/-- Settles O48, by the outcomes of `EmitPackets`: a large section faults, and sections that fit are committed where
the sink has room. -/
theorem emitPacketsCommitsTheWholeListOrFaults : Obligations.EmitPacketsCommitsTheWholeListOrFaults := by
  unfold Obligations.EmitPacketsCommitsTheWholeListOrFaults
  intro s secs hf _
  obtain ⟨⟨sec, hmem, hlong⟩, h⟩ | ⟨hfit, -, h⟩ | ⟨hfit, hfull, -⟩ := s.emitPackets_cases secs
  · rw [h, State.raiseFault_of_clear _ _ hf]
    exact ⟨fun _ => s.faulted_complete _, fun hfit _ => absurd (hfit sec hmem) (by omega)⟩
  · refine ⟨fun ⟨sec, hmem, hlong⟩ => absurd (hfit sec hmem) (by omega), fun _ _ => ?_⟩
    have hbytes := framePackets_ofNat hfit s.cc.toNat
    rw [BitVec.ofNat_toNat, BitVec.setWidth_eq] at hbytes
    exact h ▸ hbytes ▸ s.emitted_commitPackets secs
  · refine ⟨fun ⟨sec, hmem, hlong⟩ => absurd (hfit sec hmem) (by omega), fun _ hready => ?_⟩
    exact absurd (hfull.symm.trans ((s.sinkAccepts_iff _).mpr hready.room)) (by decide)

end Sys2Proof.Machine

/-! # The family of 44_commands.md: INIT, the emission commands with their bytes written out, and the step that runs
them -/

namespace Sys2Proof.Machine

open Sys2Proof.Claims

/-! ## The step on a transaction -/

section
variable {s : State} {w : CmdWord} {data : Bytes} {rest : List HostEvent}

theorem step_of_decode {i : Instr} (hp : s.port = .command w data :: rest) (hd : decode w data = .ok i) :
    step s = exec i s := by
  rw [step_command hp, State.serveCommand, hd]

/-- A word that is no command fixes no data length, and it is no INIT that is accepted while FAULT is 1 (R74, R205). -/
theorem dataFits_and_not_init_of_no_command (hw : decodeWord w = .illegal ∨ decodeWord w = .badCodec) :
    dataFits w data = true ∧ isInitWord w = false := by
  obtain hw | hw := hw
  · simp [dataFits, isInitWord, hw]
  · simp [dataFits, isInitWord, hw]

/-- While FAULT is 1, a transaction that is no well-formed INIT is over at once and has no effect (R205). -/
theorem step_of_fault (hp : s.port = .command w data :: rest) (hfits : dataFits w data = true) (hf : s.fault = true)
    (hw : isInitWord w = false) : step s = .next s.complete := by
  obtain ⟨t, ht⟩ := s.serveCommand_next_of_fits hfits
  rw [step_command hp, ht]
  obtain ⟨-, rfl⟩ | ⟨-, rfl⟩ | ⟨c, n, hinit, -, -⟩ | ⟨modes, -, -, rfl⟩ := State.serveCommand_cases ht
  · rw [State.doIllegal_of_fault hf]
  · rw [State.doBadCodec_of_fault hf]
  · simp [isInitWord, hinit] at hw
  · rw [State.doEmit_of_fault hf]

end

/-! ## INIT (R171) -/

section
variable {c : Codec} {data : Bytes}

theorem exec_init (hlen : data.length ≤ 255) (s : State) : exec (.init c data) s = .next (s.doInit c data) :=
  if_pos hlen

theorem toNat_storedAscLen (hlen : data.length ≤ 255) :
    (storedAscLen c data).toNat = if c = .aac then data.length else 0 := by
  cases c with
  | h264 => rfl
  | aac => exact Nat.mod_eq_of_lt (by omega : data.length < 2 ^ 8)

theorem read_storedAscBuf_of_getElem? {i : Nat} {b : Byte} (hb : data[i]? = some b) (m : Memory) :
    (storedAscBuf .aac data m).read i = b := by
  simp [storedAscBuf, Memory.read_writeBytes, hb]

/-- INIT writes no byte for H264, and none at or above the byte count. -/
theorem read_storedAscBuf_of_not_written {a : Nat} (h : c = .h264 ∨ data.length ≤ a) (m : Memory) :
    (storedAscBuf c data m).read a = m.read a := by
  cases c with
  | h264 => rfl
  | aac =>
    have hnone : data[a]? = none := List.getElem?_eq_none (h.resolve_left nofun)
    simp [storedAscBuf, Memory.read_writeBytes, hnone]

@[simp] theorem State.doInit_status (s : State) :
    (s.doInit c data).status = if c = .aac then 0x06#8 else 0x02#8 := by
  cases c <;> simp [State.status, State.statusCodec, Cause.code, Codec.code]

theorem toNat_encode_init (hlen : data.length ≤ 255) :
    (encode (.init c data)).1.toNat = data.length * 256 + (if c = .aac then 1 else 0) * 16 + 4 := by
  rw [encode, toNat_initEncoding, toNat_codecCode, BitVec.toNat_ofNat, Nat.mod_eq_of_lt (by omega)]

end

/-! ## The emission commands, whatever their modes -/

section
variable {i : Instr} {s : State}

/-- A writer that is ready commits the packets of the command, where an encrypted AAC section has at most 140 bytes of
configuration (R53, R154). -/
theorem exec_emission_of_ready (hi : isEmission i) (hready : Ready s (188 * packetsOf i))
    (hlen : s.codec = .aac → (∃ m ∈ modesOf i, m.isEncrypted = true) → s.ascLen.toNat ≤ 140) :
    exec i s = .next (s.commitPackets (s.sections (modesOf i))) := by
  have hemits : s.Emits (modesOf i) := ⟨hready.fault, hready.cfgValid, (s.sections_fit_iff _).mpr hlen⟩
  have hroom : s.sinkAccepts (188 * (modesOf i).length) = true :=
    (s.sinkAccepts_iff _).mpr (length_modesOf hi ▸ hready.room)
  rw [exec_of_isEmission hi, hemits.doEmit_eq, if_pos hroom]

theorem exec_emission_of_unconfigured (hi : isEmission i) (hf : s.fault = false) (hc : s.cfgValid = false) :
    ∃ t, exec i s = .next t ∧ s.Faulted t .notConfigured := by
  rw [exec_of_isEmission hi, State.doEmit_of_unconfigured hf hc]
  exact ⟨_, rfl, s.faulted_complete _⟩

/-- A command with an encrypted mode faults on more than 140 bytes of AAC configuration (R154). -/
theorem exec_emission_of_large (hi : isEmission i) (henc : ∃ m ∈ modesOf i, m.isEncrypted = true)
    (hf : s.fault = false) (hc : s.cfgValid = true) (haac : s.codec = .aac) (hlong : 140 < s.ascLen.toNat) :
    ∃ t, exec i s = .next t ∧ s.Faulted t .sectionTooLarge := by
  have hlarge : ¬ ∀ sec ∈ s.sections (modesOf i), sec.length ≤ 182 :=
    fun hfit => absurd ((s.sections_fit_iff _).mp hfit haac henc) (by omega)
  rw [exec_of_isEmission hi, State.doEmit_of_large hf hc hlarge]
  exact ⟨_, rfl, s.faulted_complete _⟩

/-- A WRITE_* word with any of bits [15:4] set is illegal (R70). -/
theorem decodeWord_of_high_bits {w : CmdWord} (hlow : 1 ≤ w.toNat % 16) (hop : w.toNat % 16 ≤ 3)
    (hhigh : w.toNat / 16 ≠ 0) : decodeWord w = .illegal :=
  decodeWord_eq_illegal.mpr (.inr (.inr ⟨hlow, hop, hhigh⟩))

end

/-! ## The sections of R140, R142 and R143 -/

/-- The bytes of R52, in index order, are what `MemRead` returns. -/
theorem State.storedBytes_eq_asc (s : State) : storedBytes s = s.asc := by
  simp [storedBytes, State.asc, Memory.readBytes_eq_map]

/-- A section that announces no AAC setup data does not depend on the stored configuration. -/
theorem buildSection_of_no_setup {c : Codec} {m : Mode} (h : c = .h264 ∨ m.isEncrypted = false) (asc : Bytes) :
    buildSection c m asc = buildSection c m [] := by
  have hdesc : esDescriptors c m asc = esDescriptors c m [] := by
    obtain rfl | hm := h
    · rfl
    · rw [esDescriptors_of_not_encrypted c asc hm, esDescriptors_of_not_encrypted c [] hm]
  simp only [buildSection, sectionBody, hdesc]

theorem buildSection_clear (c : Codec) (asc : Bytes) : buildSection c .clear asc = clearSection c := by
  rw [buildSection_of_no_setup (.inr rfl)]
  cases c <;> decide +kernel

theorem buildSection_clearLeadFirst (c : Codec) (asc : Bytes) :
    buildSection c .clearLeadFirst asc = clearSection c := by
  obtain ⟨hfirst, -⟩ := modePairsDifferAtMostInVersionByteAndCrc c asc
  rw [hfirst, buildSection_clear]

theorem buildSection_h264_clearLeadSecond : buildSection .h264 .clearLeadSecond [] = h264Second := by
  decide +kernel

theorem buildSection_h264_encrypted : buildSection .h264 .encrypted [] = h264Encrypted := by
  decide +kernel

/-- Up to 140 bytes of configuration, the lengths of R128 fit in their low bytes. -/
theorem buildSection_aac {m : Mode} (hm : m.isEncrypted = true) {asc : Bytes} (hlen : asc.length ≤ 140) :
    buildSection .aac m asc = withCrc (aacBody (versionByte m) asc) := by
  have hd : (esDescriptors .aac m asc).length = 20 + asc.length := by
    rw [length_esDescriptors, if_pos hm, if_pos rfl]
  have hbody : sectionBody .aac m asc = aacBody (versionByte m) asc := by
    rw [sectionBody_eq .aac m (by omega), hd, ← Nat.add_assoc, Nat.div_eq_of_lt (by omega),
      Nat.mod_eq_of_lt (by omega), Nat.div_eq_of_lt (by omega), Nat.mod_eq_of_lt (by omega),
      streamType_encrypted .aac hm, esDescriptors_aac asc hm]
    rfl
  rw [buildSection_eq_withCrc, hbody]

section
variable {s : State} (hlen : s.codec = .aac → s.ascLen.toNat ≤ 140)
include hlen

/-- The section of an encrypted mode, by the writer's codec. -/
theorem State.buildSection_of_encrypted {m : Mode} (hm : m.isEncrypted = true) {sec : Bytes}
    (h264 : s.codec = .h264 → buildSection .h264 m [] = sec)
    (haac : s.codec = .aac → withCrc (aacBody (versionByte m) (storedBytes s)) = sec) :
    buildSection s.codec m s.asc = sec := by
  cases hc : s.codec with
  | h264 => rw [buildSection_of_no_setup (.inl rfl), h264 hc]
  | aac => rw [buildSection_aac hm (s.length_asc ▸ hlen hc), ← s.storedBytes_eq_asc, haac hc]

theorem State.buildSection_clearLeadSecond : buildSection s.codec .clearLeadSecond s.asc = secondSection s :=
  State.buildSection_of_encrypted hlen rfl
    (fun h264 => by rw [secondSection, h264, buildSection_h264_clearLeadSecond])
    (fun haac => by rw [secondSection, haac]; rfl)

theorem State.buildSection_encrypted : buildSection s.codec .encrypted s.asc = encryptedSection s :=
  State.buildSection_of_encrypted hlen rfl
    (fun h264 => by rw [encryptedSection, h264, buildSection_h264_encrypted])
    (fun haac => by rw [encryptedSection, haac]; rfl)

theorem State.sections_fit (modes : List Mode) : ∀ sec ∈ s.sections modes, sec.length ≤ 182 :=
  (s.sections_fit_iff modes).mpr fun haac _ => hlen haac

end

/-! ## The bytes that a command appends -/

theorem framePacket_eq_packetOf {sec : Bytes} (hfit : sec.length ≤ 182) (cc : BitVec 4) :
    framePacket sec cc = packetOf cc.toNat sec := by
  rw [← framePacket_ofNat hfit, BitVec.ofNat_toNat, BitVec.setWidth_eq]

theorem framePackets_singleton {sec : Bytes} (hfit : sec.length ≤ 182) (cc : BitVec 4) :
    framePackets [sec] cc = packetOf cc.toNat sec := by
  rw [framePackets, framePackets, List.append_nil, framePacket_eq_packetOf hfit]

/-- The second packet of a pair carries the next counter value (R173). -/
theorem framePackets_pair {a b : Bytes} (ha : a.length ≤ 182) (hb : b.length ≤ 182) (cc : BitVec 4) :
    framePackets [a, b] cc = packetOf cc.toNat a ++ packetOf (cc.toNat + 1) b := by
  have hnext : nextCc cc = BitVec.ofNat 4 (cc.toNat + 1) := BitVec.eq_of_toNat_eq (by simp [toNat_nextCc])
  rw [framePackets, framePackets, framePackets, List.append_nil, hnext, framePacket_ofNat hb,
    framePacket_eq_packetOf ha]

theorem length_packetOf {sec : Bytes} (hfit : sec.length ≤ 182) (n : Nat) : (packetOf n sec).length = 188 := by
  rw [← framePacket_ofNat hfit, length_framePacket _ hfit]

/-- The counter value shows in byte 3 alone. -/
theorem getElem?_packetOf_of_ne {k : Nat} (hk : k ≠ 3) (m n : Nat) (sec : Bytes) :
    (packetOf m sec)[k]? = (packetOf n sec)[k]? := by
  have hset : packetOf m sec = (packetOf n sec).set 3 (u8 (0x30 + m % 16)) := rfl
  rw [hset, List.getElem?_set_ne hk.symm]

theorem length_clearSection_le (c : Codec) : (clearSection c).length ≤ 182 := by
  cases c <;> decide

theorem State.framePackets_writeClear (s : State) :
    framePackets (s.sections (modesOf .writeClear)) s.cc = packetOf s.cc.toNat (clearSection s.codec) := by
  have hsec : s.sections (modesOf .writeClear) = [clearSection s.codec] :=
    congrArg (fun sec => [sec]) (buildSection_clear s.codec s.asc)
  rw [hsec, framePackets_singleton (length_clearSection_le _)]

section
variable {s : State} (hlen : s.codec = .aac → s.ascLen.toNat ≤ 140)
include hlen

theorem State.length_secondSection_le : (secondSection s).length ≤ 182 := by
  rw [← State.buildSection_clearLeadSecond hlen]
  exact State.sections_fit hlen [.clearLeadSecond] _ (List.mem_singleton_self _)

theorem State.length_encryptedSection_le : (encryptedSection s).length ≤ 182 := by
  rw [← State.buildSection_encrypted hlen]
  exact State.sections_fit hlen [.encrypted] _ (List.mem_singleton_self _)

theorem State.framePackets_writeClearLead :
    framePackets (s.sections (modesOf .writeClearLead)) s.cc =
      packetOf s.cc.toNat (clearSection s.codec) ++ packetOf (s.cc.toNat + 1) (secondSection s) := by
  have hsec : s.sections (modesOf .writeClearLead) = [clearSection s.codec, secondSection s] := by
    rw [← buildSection_clearLeadFirst s.codec s.asc, ← State.buildSection_clearLeadSecond hlen]
    rfl
  rw [hsec, framePackets_pair (length_clearSection_le _) (State.length_secondSection_le hlen)]

theorem State.framePackets_writeEncrypted :
    framePackets (s.sections (modesOf .writeEncrypted)) s.cc = packetOf s.cc.toNat (encryptedSection s) := by
  have hsec : s.sections (modesOf .writeEncrypted) = [encryptedSection s] :=
    congrArg (fun sec => [sec]) (State.buildSection_encrypted hlen)
  rw [hsec, framePackets_singleton (State.length_encryptedSection_le hlen)]

end

/-! ## One emission after another -/

section
variable {s : State} {m n : Nat}

theorem ready_of_le (h : Ready s n) (hle : m ≤ n) : Ready s m :=
  ⟨h.fault, h.cfgValid, h.room.imp_right fun ⟨c, hc, hroom⟩ => ⟨c, hc, by omega⟩⟩

/-- After a commit there is room for what was not used of it. -/
theorem ready_commitPackets {secs : List Bytes} (hfit : ∀ sec ∈ secs, sec.length ≤ 182)
    (h : Ready s (188 * secs.length + n)) : Ready (s.commitPackets secs) n := by
  refine ⟨h.fault, h.cfgValid, h.room.imp_right fun ⟨c, hc, hroom⟩ => ⟨c, hc, ?_⟩⟩
  rw [State.commitPackets_out, List.length_append, length_framePackets _ hfit]
  omega

/-- WRITE_ENCRYPTED after an emission command appends the packet of the same configuration, with the counter that the
command left (R177). -/
theorem exec_writeEncrypted_after {i : Instr} (hi : isEmission i) (hready : Ready s (188 * packetsOf i + 188))
    (hlen : s.codec = .aac → s.ascLen.toNat ≤ 140) :
    ∃ t u, exec i s = .next t ∧ exec .writeEncrypted t = .next u ∧
      u.out = t.out ++ packetOf ((s.cc.toNat + packetsOf i) % 16) (encryptedSection s) := by
  have hfirst := exec_emission_of_ready hi (ready_of_le hready (Nat.le_add_right _ _)) fun haac _ => hlen haac
  have hroom : Ready (s.commitPackets (s.sections (modesOf i))) 188 := by
    refine ready_commitPackets (State.sections_fit hlen _) ?_
    rwa [State.length_sections, length_modesOf hi]
  have hsecond := exec_emission_of_ready (i := .writeEncrypted) trivial hroom fun haac _ => hlen haac
  refine ⟨_, _, hfirst, hsecond, ?_⟩
  rw [State.commitPackets_out, State.framePackets_writeEncrypted (s := s.commitPackets _) hlen,
    State.commitPackets_cc, toNat_ccAfter, State.length_sections, length_modesOf hi]
  rfl

end

/-! ## The obligations of 44_commands.md -/

/-- Settles O5, by the service of the transaction at the port's head. -/
theorem stepRunsTheDecodedCommand : Obligations.StepRunsTheDecodedCommand :=
  fun _ _ _ _ _ hp hd => step_of_decode hp hd

/-- Settles O13: INIT's effect field by field, its word as a number, and the step on a word that is no well-formed INIT,
which faults while FAULT is 0 and is over at once while it is 1. -/
theorem initConstructsAWriter : Obligations.InitConstructsAWriter := by
  refine ⟨fun c data s hlen => ?_, fun c data hlen => toNat_encode_init hlen, fun s w data rest hp hop hbad => ?_,
    fun s w data rest hp hfits hf hw => ⟨_, step_of_fault hp hfits hf hw, rfl⟩⟩
  · exact ⟨_, exec_init hlen s, rfl, toNat_storedAscLen hlen,
      by rintro rfl i b hb; exact read_storedAscBuf_of_getElem? hb _,
      fun a ha => read_storedAscBuf_of_not_written ha _, rfl, rfl, rfl, rfl, s.doInit_status, rfl, rfl,
      rfl, rfl, rfl, rfl⟩
  · have hillegal (hrsv : w.toNat / 64 % 4 ≠ 0) : decodeWord w = .illegal := by
      rw [decodeWord_of_op_init hop, initWord_of_reserved_bits hrsv]
    have hcodec (hrsv : w.toNat / 64 % 4 = 0) : decodeWord w = .badCodec := by
      rw [decodeWord_of_op_init hop, initWord_of_reserved_codec hrsv (hbad.resolve_left (not_not.mpr hrsv))]
    cases hf : s.fault with
    | true =>
      obtain ⟨hfits, hinit⟩ := dataFits_and_not_init_of_no_command (data := data)
        ((ne_or_eq _ 0).imp hillegal hcodec)
      exact ⟨_, step_of_fault hp hfits hf hinit, fun _ => rfl, nofun, nofun⟩
    | false =>
      obtain hrsv | hrsv := ne_or_eq (w.toNat / 64 % 4) 0
      · exact ⟨_, step_of_illegal hp hf (hillegal hrsv), nofun, fun _ _ => s.faulted_complete _,
          fun _ h0 => absurd h0 hrsv⟩
      · exact ⟨_, step_of_badCodec hp hf (hcodec hrsv), nofun, fun _ hne => absurd hrsv hne,
          fun _ _ => State.complete_of_port hp⟩

/-- Settles O15: the section of WRITE_CLEAR is R140's for every configuration, so it always fits. -/
theorem writeClearEmitsOneClearPacket : Obligations.WriteClearEmitsOneClearPacket := by
  refine ⟨fun s hready => ?_, fun s hf hc => exec_emission_of_unconfigured trivial hf hc,
    fun w hop => ⟨decodeWord_writeClear, decodeWord_of_high_bits (by omega) (by omega)⟩⟩
  have hexec := exec_emission_of_ready (i := .writeClear) trivial hready
    fun _ henc => absurd rfl (ne_writeClear_of_encrypted_mode henc)
  exact ⟨_, hexec, s.framePackets_writeClear ▸ s.emitted_commitPackets _⟩

/-- Settles O16: both sections of the pair are those that the spec writes out, in consecutive packets. -/
theorem writeClearLeadEmitsAPairOfPackets : Obligations.WriteClearLeadEmitsAPairOfPackets := by
  refine ⟨fun s hready hlen => ?_, fun s hf hc => exec_emission_of_unconfigured trivial hf hc,
    fun s hf hc haac hlong => exec_emission_of_large trivial ⟨.clearLeadSecond, by decide⟩ hf hc haac hlong,
    fun w hop => ⟨decodeWord_writeClearLead, decodeWord_of_high_bits (by omega) (by omega)⟩⟩
  have hexec := exec_emission_of_ready (i := .writeClearLead) trivial hready fun haac _ => hlen haac
  exact ⟨_, hexec, State.framePackets_writeClearLead hlen ▸ s.emitted_commitPackets _⟩

/-- Settles O17: the Encrypted section is the one that the spec writes out, whatever was emitted before. -/
theorem writeEncryptedEmitsOneEncryptedPacket : Obligations.WriteEncryptedEmitsOneEncryptedPacket := by
  refine ⟨fun s hready hlen => ?_, fun s hf hc => exec_emission_of_unconfigured trivial hf hc,
    fun s hf hc haac hlong => exec_emission_of_large trivial ⟨.encrypted, by decide⟩ hf hc haac hlong,
    fun w hop => ⟨decodeWord_writeEncrypted, decodeWord_of_high_bits (by omega) (by omega)⟩⟩
  have hexec := exec_emission_of_ready (i := .writeEncrypted) trivial hready fun haac _ => hlen haac
  exact ⟨_, hexec, State.framePackets_writeEncrypted hlen ▸ s.emitted_commitPackets _⟩

/-- Settles O22: both commands leave the configuration alone, so the two Encrypted packets carry one section, with the
counter at 1 and at 2. -/
theorem historyShowsOnlyInTheCounter : Obligations.HistoryShowsOnlyInTheCounter := by
  intro s hready hcc hlen
  obtain ⟨a, b, ha, hb, hbout⟩ :=
    exec_writeEncrypted_after (i := .writeClear) trivial (ready_of_le hready (by decide)) hlen
  obtain ⟨c, d, hc, hd, hdout⟩ := exec_writeEncrypted_after (i := .writeClearLead) trivial hready hlen
  rw [hcc] at hbout hdout
  have hfit := State.length_encryptedSection_le hlen
  refine ⟨a, b, c, d, _, _, ha, hb, hc, hd, hbout, hdout, length_packetOf hfit _, length_packetOf hfit _, rfl, rfl,
    fun k hk => getElem?_packetOf_of_ne hk _ _ _⟩

end Sys2Proof.Machine

/-! # The family of 60_exceptions.md: the first cause that a command records, what FAULT holds back, and what clears it -/

namespace Sys2Proof.Machine

/-! ## While FAULT is 1 -/

section
variable {s t : State}

theorem State.SameFault.of_block_eq (h : t.block = s.block) : s.SameFault t := by
  obtain ⟨-, -, -, -, -, hfault, hcause⟩ := State.block_eq_iff.mp h
  exact ⟨hfault, hcause⟩

/-- While FAULT is 1, a transaction keeps the fault, or it is a well-formed INIT and restarts the block (R205, R207). -/
theorem State.serveCommand_of_fault {w : CmdWord} {data : Bytes} (hf : s.fault = true)
    (h : s.serveCommand w data = .next t) :
    s.SameFault t ∨ (t.fault = false ∧ t.cc = 0#4 ∧ isInitWord w = true) := by
  obtain ⟨-, rfl⟩ | ⟨-, rfl⟩ | ⟨c, n, hinit, -, rfl⟩ | ⟨modes, -, -, rfl⟩ := State.serveCommand_cases h
  · rw [State.doIllegal_of_fault hf]; exact .inl (.of_block_eq s.block_complete)
  · rw [State.doBadCodec_of_fault hf]; exact .inl (.of_block_eq s.block_complete)
  · exact .inr ⟨rfl, rfl, by rw [isInitWord, hinit]⟩
  · rw [State.doEmit_of_fault hf]; exact .inl (.of_block_eq s.block_complete)

/-- A RESET after a command resets the block, or waits with the command. -/
theorem State.resetAfter_cases (s u : State) : s.resetAfter u = u.applyReset ∨ s.resetAfter u = u :=
  ite_eq_or_eq ..

/-- While FAULT is 1, a step keeps the fault, or its interaction is one that restarts the block (R206, R207). -/
theorem step_from_fault (hf : s.fault = true) (h : step s = .next t) :
    s.SameFault t ∨
      (t.fault = false ∧ t.cc = 0#4 ∧ ∃ e rest, s.port = e :: rest ∧ e.restarts = true) := by
  obtain ⟨-, rfl⟩ | ⟨w, data, rest, hp, hc⟩ | ⟨w, data, rest, u, hp, hu, rfl⟩ | ⟨w, data, rest, hp, rfl⟩ |
    ⟨rest, hp, rfl⟩ | ⟨_, -, rfl⟩ | ⟨_, -, rfl⟩ | ⟨n, _, -, rfl⟩ | ⟨_, -, rfl⟩ := step_cases h
  · exact .inl ⟨rfl, rfl⟩
  · exact (State.serveCommand_of_fault hf hc).imp_right fun ⟨hclear, hcc, hw⟩ => ⟨hclear, hcc, _, rest, hp, hw⟩
  · obtain hreset | hwait := s.resetAfter_cases u
    · rw [hreset]; exact .inr ⟨rfl, rfl, _, rest, hp, rfl⟩
    · rw [hwait]
      obtain ⟨hfault, hcause⟩ | ⟨hclear, hcc, -⟩ :=
        State.serveCommand_of_fault (s := { s with choices := s.choices + 1 }) hf hu
      · exact .inl ⟨hfault, hcause⟩
      · exact .inr ⟨hclear, hcc, _, rest, hp, rfl⟩
  · exact .inr ⟨rfl, rfl, _, rest, hp, rfl⟩
  · exact .inr ⟨rfl, rfl, _, rest, hp, rfl⟩
  · exact .inl (.of_block_eq s.block_serveReadStatus)
  · exact .inl (.of_block_eq s.block_serveClearOut)
  · exact .inl (.of_block_eq (s.block_serveDrainOut n))
  · exact .inl (.of_block_eq s.block_serveReadOutSize)

/-- While FAULT stays 1, the cause stays (R206). -/
theorem cause_of_fault_stays (h : step s = .next t) (hf : s.fault = true) (ht : t.fault = true) : t.cause = s.cause := by
  obtain hsame | ⟨hclear, -⟩ := step_from_fault hf h
  · exact hsame.cause
  · exact absurd (ht.symm.trans hclear) (by decide)

end

/-- While FAULT is 1, a run over commands that are no well-formed INIT takes them off the port and does nothing else.
By induction on the steps; where the port is empty the block is idle. -/
theorem runSteps_of_fault (n : Nat) {s : State} (hf : s.fault = true)
    (hcmds : ∀ e ∈ s.port, ∃ w data, e = .command w data ∧ dataFits w data = true ∧ isInitWord w = false) :
    runSteps n s = .next { s with port := s.port.drop n } := by
  induction n generalizing s with
  | zero => rfl
  | succ n ih =>
    have hstep : step s = .next s.complete := by
      cases hp : s.port with
      | nil => rw [step_idle hp, State.complete, hp, List.tail_nil, ← hp]
      | cons e rest =>
        obtain ⟨w, data, rfl, hfits, hw⟩ := hcmds e (by simp [hp])
        exact step_of_fault hp hfits hf hw
    rw [runSteps_succ_of_next n hstep, ih (s := s.complete) hf fun e he => hcmds e (List.mem_of_mem_tail he),
      State.complete, List.drop_tail]

/-! ## The first cause that a command meets (R201) -/

/-- The first check that an emission command fails, where it fails one: for a writer, then for the size of its
sections (R154, R201). -/
def State.emissionFault (s : State) (modes : List Mode) : Cause :=
  if s.cfgValid = false then .notConfigured
  else if s.codec = .aac ∧ 140 < s.ascLen.toNat ∧ ∃ m ∈ modes, m.isEncrypted = true then .sectionTooLarge
  else .none

/-- The cause that a decoded word records while FAULT is 0, or `none` (R201). -/
def State.firstFault (s : State) : Cmd → Cause
  | .illegal => .illegalCommand
  | .badCodec => .unsupportedCodec
  | .init _ _ => .none
  | .writeClear => s.emissionFault [.clear]
  | .writeClearLead => s.emissionFault [.clearLeadFirst, .clearLeadSecond]
  | .writeEncrypted => s.emissionFault [.encrypted]

/-- The state after a command that faults with `code` while FAULT is 0 (R203, R204). -/
def State.afterFault (s : State) (code : Cause) : State :=
  ({ s with
      cfgValid := if code = Cause.unsupportedCodec then false else s.cfgValid
      fault := true
      cause := code }).complete

/-- `t` records the fault `code` of `s` and does nothing else, or there is no fault to record and FAULT stays 0. -/
def State.Records (s : State) (code : Cause) (t : State) : Prop :=
  (code = .none ∧ t.fault = false) ∨ (code ≠ .none ∧ t = s.afterFault code)

section
variable {s t : State} {modes : List Mode} {cmd : Cmd}

theorem State.emissionFault_eq_notConfigured : s.emissionFault modes = .notConfigured ↔ s.cfgValid = false := by
  unfold State.emissionFault
  split_ifs with hcfg hlarge
  · exact iff_of_true rfl hcfg
  · exact iff_of_false nofun hcfg
  · exact iff_of_false nofun hcfg

theorem State.emissionFault_eq_sectionTooLarge :
    s.emissionFault modes = .sectionTooLarge ↔
      s.cfgValid = true ∧ s.codec = .aac ∧ 140 < s.ascLen.toNat ∧ ∃ m ∈ modes, m.isEncrypted = true := by
  unfold State.emissionFault
  split_ifs with hcfg hlarge
  · exact iff_of_false nofun fun h => absurd (h.1.symm.trans hcfg) (by decide)
  · exact iff_of_true rfl ⟨Bool.eq_true_of_not_eq_false hcfg, hlarge⟩
  · exact iff_of_false nofun fun h => hlarge h.2

theorem State.emissionFault_eq_none (hcfg : s.cfgValid = true) (hfit : ∀ sec ∈ s.sections modes, sec.length ≤ 182) :
    s.emissionFault modes = .none := by
  have hsmall : ¬ (s.codec = .aac ∧ 140 < s.ascLen.toNat ∧ ∃ m ∈ modes, m.isEncrypted = true) :=
    fun ⟨haac, hlong, henc⟩ => absurd ((s.sections_fit_iff modes).mp hfit haac henc) (by omega)
  rw [State.emissionFault, if_neg (by rw [hcfg]; decide), if_neg hsmall]

theorem State.emissionFault_ne_illegalCommand : s.emissionFault modes ≠ .illegalCommand := by
  unfold State.emissionFault
  split_ifs <;> decide

theorem State.emissionFault_ne_unsupportedCodec : s.emissionFault modes ≠ .unsupportedCodec := by
  unfold State.emissionFault
  split_ifs <;> decide

theorem State.firstFault_of_emissionModes (h : emissionModes cmd = some modes) :
    s.firstFault cmd = s.emissionFault modes := by
  cases cmd with
  | illegal => cases h
  | badCodec => cases h
  | init c n => cases h
  | writeClear => cases h; rfl
  | writeClearLead => cases h; rfl
  | writeEncrypted => cases h; rfl

/-! ## What the command records -/

theorem State.records_doEmit (hf : s.fault = false) (modes : List Mode) :
    s.Records (s.emissionFault modes) (s.doEmit modes) := by
  obtain ⟨hfault, -⟩ | ⟨-, hcfg, h⟩ | ⟨-, hcfg, hlarge, h⟩ | ⟨-, hcfg, hfit, -, h⟩ | ⟨-, hcfg, hfit, -, h⟩ :=
    s.doEmit_outcomes modes
  · exact absurd (hf.symm.trans hfault) (by decide)
  · rw [State.emissionFault_eq_notConfigured.mpr hcfg]; exact .inr ⟨nofun, h⟩
  · rw [State.emissionFault_eq_sectionTooLarge.mpr ⟨hcfg, hlarge⟩]; exact .inr ⟨nofun, h⟩
  · exact .inl ⟨State.emissionFault_eq_none hcfg hfit, by rw [h]; exact hf⟩
  · exact .inl ⟨State.emissionFault_eq_none hcfg hfit, by rw [h]; exact s.holdForSink_fault.trans hf⟩

/-- From FAULT 0, a step on a transaction records the first cause that it meets, if it meets one (R201, R203). -/
theorem records_step {w : CmdWord} {data : Bytes} {rest : List HostEvent} (hp : s.port = .command w data :: rest)
    (hf : s.fault = false) (h : step s = .next t) : s.Records (s.firstFault (decodeWord w)) t := by
  obtain ⟨hw, rfl⟩ | ⟨hw, rfl⟩ | ⟨c, n, hw, -, rfl⟩ | ⟨modes, hm, -, rfl⟩ :=
    State.serveCommand_cases ((step_command hp).symm.trans h)
  · rw [hw]; exact .inr ⟨nofun, State.doIllegal_of_clear hf⟩
  · rw [hw]; exact .inr ⟨nofun, State.doBadCodec_of_clear hf⟩
  · rw [hw]; exact .inl ⟨rfl, rfl⟩
  · rw [State.firstFault_of_emissionModes hm]; exact State.records_doEmit hf modes

theorem State.Records.eq_afterFault {code : Cause} (h : s.Records code t) (ht : t.fault = true) :
    code ≠ .none ∧ t = s.afterFault code :=
  h.resolve_left fun ⟨_, hclear⟩ => absurd (ht.symm.trans hclear) (by decide)

/-- A command leaves FAULT 1 with the cause `code` exactly where `code` is the one that it records. -/
theorem State.Records.fault_and_cause_iff {found : Cause} (h : s.Records found t) (code : Cause) (hne : code ≠ .none) :
    t.fault = true ∧ t.cause = code ↔ found = code := by
  obtain ⟨rfl, hclear⟩ | ⟨-, rfl⟩ := h
  · exact iff_of_false (fun ⟨ht, _⟩ => absurd (ht.symm.trans hclear) (by decide)) hne.symm
  · exact and_iff_right rfl

/-! ## Which words meet which cause -/

theorem State.firstFault_eq_illegalCommand : s.firstFault cmd = .illegalCommand ↔ cmd = .illegal := by
  cases cmd <;> simp [State.firstFault, State.emissionFault_ne_illegalCommand]

theorem State.firstFault_eq_unsupportedCodec : s.firstFault cmd = .unsupportedCodec ↔ cmd = .badCodec := by
  cases cmd <;> simp [State.firstFault, State.emissionFault_ne_unsupportedCodec]

theorem State.firstFault_eq_notConfigured :
    s.firstFault cmd = .notConfigured ↔
      (cmd = .writeClear ∨ cmd = .writeClearLead ∨ cmd = .writeEncrypted) ∧ s.cfgValid = false := by
  cases cmd <;> simp [State.firstFault, State.emissionFault_eq_notConfigured]

theorem State.firstFault_eq_sectionTooLarge :
    s.firstFault cmd = .sectionTooLarge ↔
      (cmd = .writeClearLead ∨ cmd = .writeEncrypted) ∧ s.cfgValid = true ∧ s.codec = .aac ∧
        140 < s.ascLen.toNat := by
  cases cmd <;> simp [State.firstFault, State.emissionFault_eq_sectionTooLarge, Mode.isEncrypted]

end

/-! ## Several instances -/

theorem System.stepInstance_eq_some {sys sys' : System} {k : Nat} :
    sys.stepInstance k = some sys' ↔
      ∃ s t, sys.instances[k]? = some s ∧ step s = .next t ∧ sys' = { instances := sys.instances.set k t } := by
  unfold System.stepInstance
  cases hk : sys.instances[k]? with
  | none => simp
  | some s => cases hs : step s <;> simp [hs, eq_comm]

/-! ## The obligations of 60_exceptions.md -/

/-- Settles O24: an ignored command is only taken off the port, and so is each command of a stream. -/
theorem faultedBlockIgnoresAllButInit : Obligations.FaultedBlockIgnoresAllButInit :=
  ⟨fun _ _ _ _ hp hfits hf hw => ⟨_, step_of_fault hp hfits hf hw, rfl⟩,
    fun n _ hf hcmds => runSteps_of_fault n hf hcmds⟩

/-- Settles O25: a step to FAULT 1 ends in the state that records the command's first cause. -/
theorem faultsArePrecise : Obligations.FaultsArePrecise := by
  intro s t w data rest hp h hf ht
  obtain ⟨hne, rfl⟩ := (records_step hp hf h).eq_afterFault ht
  exact ⟨hne, rfl, rfl, rfl, fun _ => rfl, rfl, congrArg List.tail hp, ⟨rfl, rfl, rfl, rfl⟩, rfl⟩

/-- Settles O26: a command records its first cause, and each cause is the first for the words that R201 names. -/
theorem faultCausesHaveTheirOrder : Obligations.FaultCausesHaveTheirOrder := by
  refine ⟨fun s t => cause_of_fault_stays, fun s t w data rest hp _ h hf => ?_⟩
  have hrec := records_step hp hf h
  refine ⟨?_, ?_, ?_, ?_⟩
  · rw [hrec.fault_and_cause_iff .illegalCommand nofun, State.firstFault_eq_illegalCommand, decodeWord_eq_illegal]
  · rw [hrec.fault_and_cause_iff .unsupportedCodec nofun, State.firstFault_eq_unsupportedCodec, decodeWord_eq_badCodec]
  · rw [hrec.fault_and_cause_iff .notConfigured nofun, State.firstFault_eq_notConfigured, decodeWord_writeClear,
      decodeWord_writeClearLead, decodeWord_writeEncrypted]
  · rw [hrec.fault_and_cause_iff .sectionTooLarge nofun, State.firstFault_eq_sectionTooLarge, decodeWord_writeClearLead,
      decodeWord_writeEncrypted]

/-- Settles O27: a step from FAULT 1 keeps the fault or restarts the block, and INIT and RESET write
FAULT and CC from every state. -/
theorem onlyInitOrResetClearsTheFault : Obligations.OnlyInitOrResetClearsTheFault := by
  refine ⟨fun s t h hf ht => ?_, fun c data s hlen => ⟨_, exec_init hlen s, rfl, rfl⟩,
    fun s rest hp => ⟨_, step_reset hp, rfl, rfl⟩, fun s t => cause_of_fault_stays⟩
  obtain hsame | ⟨-, hcc, hrestarts⟩ := step_from_fault hf h
  · exact absurd (ht.symm.trans (hsame.fault.trans hf)) (by decide)
  · exact ⟨hcc, hrestarts⟩

/-- Settles O52: a step writes the list of blocks at its own index alone. -/
theorem instancesShareNothing : Obligations.InstancesShareNothing := by
  intro sys sys' k h
  obtain ⟨s, t, hk, hstep, rfl⟩ := System.stepInstance_eq_some.mp h
  obtain ⟨hlt, -⟩ := List.getElem?_eq_some_iff.mp hk
  exact ⟨fun j hj => List.getElem?_set_ne hj.symm, s, t, hk, hstep, List.getElem?_set_self hlt⟩

/-- Settles O6, by the service of an empty port. -/
theorem idleBlockKeepsItsState : Obligations.IdleBlockKeepsItsState := fun _ hp => step_idle hp

/-- Settles O23, by the two cases of FAULT. -/
theorem raisingAFaultKeepsTheFirstCause : Obligations.RaisingAFaultKeepsTheFirstCause :=
  fun s code => ⟨s.raiseFault_of_clear code, s.raiseFault_of_fault code⟩

end Sys2Proof.Machine

/-! # The family of 70_reset_and_hazards.md: commands that complete in one step, RESET before INIT, and RESET during a
command -/

namespace Sys2Proof.Machine

open Sys2Proof.Claims

/-! ## A command with room is over in one step -/

/-- A WRITE_* word with the empty data vector of R74 is an emission command, and it emits the word's modes. -/
theorem decode_of_emissionModes {w : CmdWord} {modes : List Mode} (h : emissionModes (decodeWord w) = some modes) :
    ∃ i, decode w [] = .ok i ∧ isEmission i ∧ modesOf i = modes := by
  cases hw : decodeWord w with
  | writeClear => rw [hw] at h; cases h; exact ⟨.writeClear, by simp [decode, hw, withoutData], trivial, rfl⟩
  | writeClearLead => rw [hw] at h; cases h; exact ⟨.writeClearLead, by simp [decode, hw, withoutData], trivial, rfl⟩
  | writeEncrypted => rw [hw] at h; cases h; exact ⟨.writeEncrypted, by simp [decode, hw, withoutData], trivial, rfl⟩
  | init c n => rw [hw] at h; cases h
  | badCodec => rw [hw] at h; cases h
  | illegal => rw [hw] at h; cases h

/-- Only a sink without room holds an emission command (R58). -/
theorem State.doEmit_port_of_room {s : State} {modes : List Mode} (hroom : s.sinkAccepts (188 * modes.length) = true) :
    (s.doEmit modes).port = s.port.tail := by
  obtain ⟨-, h⟩ | ⟨-, -, h⟩ | ⟨-, -, -, h⟩ | ⟨-, -, -, -, h⟩ | ⟨-, -, -, hfull, -⟩ := s.doEmit_outcomes modes
  · rw [h]; rfl
  · rw [h]; rfl
  · rw [h]; rfl
  · rw [h]; rfl
  · exact absurd (hroom.symm.trans hfull) (by decide)

/-! ## The bytes that INIT stores -/

/-- The stored bytes are INIT's data for AAC and none for H264, whatever ASC_BUF held before (R171). -/
theorem State.storedBytes_doInit (s : State) (c : Codec) {data : Bytes} (hlen : data.length ≤ 255) :
    storedBytes (s.doInit c data) = if c = .aac then data else [] := by
  cases c with
  | h264 => rfl
  | aac =>
    refine List.ext_getElem (by simp [storedBytes, toNat_storedAscLen hlen]) fun i _ hi => ?_
    simpa [storedBytes] using read_storedAscBuf_of_getElem? (List.getElem?_eq_getElem hi) s.ascBuf

/-- Where the stored bytes agree, so does every byte of ASC_BUF below ASC_LEN. -/
theorem read_eq_of_storedBytes_eq {s t : State} (h : storedBytes s = storedBytes t) (hlen : s.ascLen = t.ascLen)
    {a : Nat} (ha : a < t.ascLen.toNat) : s.ascBuf.read a = t.ascBuf.read a := by
  rw [storedBytes, hlen] at h
  exact List.map_inj_left.mp h a (List.mem_range.mpr ha)

/-! ## RESET during a command -/

section
variable {s u : State} {rest : List HostEvent}

theorem State.serveReset_of_port {e : HostEvent} (hp : s.port = e :: rest) :
    s.serveReset = ({ s with port := rest } : State).applyReset := by
  rw [State.serveReset, State.complete_of_port (s := s.applyReset) hp]; rfl

/-- RESET follows a command that is over (R230). -/
theorem State.resetAfter_of_completed {e : HostEvent} (hp : s.port = e :: rest) (hu : u.port = rest) :
    s.resetAfter u = u.applyReset :=
  if_pos (by simp [hp, hu])

/-- RESET waits with a command that is held. -/
theorem State.resetAfter_of_held (hu : u.port = s.port) : s.resetAfter u = u :=
  if_neg (by simp [hu])

/-- A command that would lead to `u` and during which RESET arrives is served and RESET comes after it, or it never
started and the reset has happened (R230, U8). -/
theorem step_commandDuringReset_cases {w : CmdWord} {data : Bytes} (hp : s.port = .commandDuringReset w data :: rest)
    (hu : ({ s with choices := s.choices + 1 } : State).serveCommand w data = .next u) :
    step s = .next (s.resetAfter u) ∨
      step s = .next ({ s with choices := s.choices + 1, port := rest } : State).applyReset := by
  rw [step_commandDuringReset hp, State.serveCommandDuringReset, hu,
    State.serveReset_of_port (s := { s with choices := s.choices + 1 }) hp]
  exact ite_eq_or_eq ..

end

/-! ## The obligations of 70_reset_and_hazards.md -/

/-- Settles O12, by what a transaction can do: each case is over in the step, an emission command since it has room. -/
theorem commandWithRoomCompletesInOneStep : Obligations.CommandWithRoomCompletesInOneStep := by
  intro s w data rest hp hfits hroom
  obtain ⟨t, ht⟩ := s.serveCommand_next_of_fits hfits
  refine ⟨t, (step_command hp).trans ht, ?_⟩
  have htail : t.port = s.port.tail := by
    obtain ⟨-, rfl⟩ | ⟨-, rfl⟩ | ⟨c, n, -, -, rfl⟩ | ⟨modes, hm, rfl, rfl⟩ := State.serveCommand_cases ht
    · exact s.doIllegal_port
    · exact s.doBadCodec_port
    · rfl
    · obtain ⟨i, hd, hi, rfl⟩ := decode_of_emissionModes hm
      exact State.doEmit_port_of_room ((s.sinkAccepts_iff _).mpr (length_modesOf hi ▸ hroom i hd hi))
  rw [htail, hp, List.tail_cons]

/-- Settles O14: both runs write the same values and store the same bytes, and leave the rest of the state alone. -/
theorem resetBeforeInitMakesNoDifference : Obligations.ResetBeforeInitMakesNoDifference := by
  intro s c data hlen
  have hstored := s.storedBytes_doInit c hlen
  have hsame : storedBytes (s.applyReset.doInit c data) = storedBytes (s.doInit c data) :=
    (s.applyReset.storedBytes_doInit c hlen).trans hstored.symm
  exact ⟨_, _, exec_init hlen s, exec_init hlen s.applyReset, rfl, rfl, rfl, rfl, rfl,
    fun a ha => read_eq_of_storedBytes_eq hsame rfl ha, hstored, hsame, rfl⟩

/-- Settles O31: RESET writes each value, and during a command that completes it follows the command or comes instead
of it. -/
theorem resetSetsEveryStateElement : Obligations.ResetSetsEveryStateElement := by
  refine ⟨fun s rest hp => ?_, fun s t u w data rest hp hu hover ht => ?_⟩
  · rw [step_reset hp, State.serveReset_of_port hp]
    exact ⟨_, rfl, rfl, rfl, rfl, rfl, rfl, rfl, State.applyReset_status _, rfl, rfl, rfl, rfl, rfl⟩
  · rw [← State.resetAfter_of_completed hp hover]
    have hcases := step_commandDuringReset_cases hp hu
    rwa [ht, Host.Outcome.next.injEq, Host.Outcome.next.injEq] at hcases

/-- Settles O32: RESET after a held command leaves the held state as it is. -/
theorem resetDuringAHeldCommandWaitsOrHappens : Obligations.ResetDuringAHeldCommandWaitsOrHappens := by
  intro s u w data rest hp hu hheld
  obtain h | h := step_commandDuringReset_cases hp hu
  · exact ⟨u, by rw [h, State.resetAfter_of_held hheld], .inl rfl⟩
  · exact ⟨_, h, .inr rfl⟩

end Sys2Proof.Machine
